-- ==== Sys2Proof/Word.lean ====
section
/-! DEFINITION. The value types of DESCORE (spec/00_scope.md R7, R10, R17; widths of R6). -/

namespace Sys2Proof

/-- A byte of a channel (R10). -/
abbrev Byte := BitVec 8

/-- A 32-bit half-block (R6 `HALF_BITS`). -/
abbrev Half := BitVec 32

/-- A 64-bit block, or the 64-bit value of a key (R6 `BLOCK_BITS`, R141). -/
abbrev Block := BitVec 64

/-- A 48-bit round subkey (R6 `SUBKEY_BITS`). -/
abbrev Subkey := BitVec 48

/-- The SubkeySchedule: sixteen subkeys (R17, R20). Element `i - 1` is `K[i]`. -/
abbrev Schedule := Vector Subkey 16

end Sys2Proof
end

