-- ==== Sys2Proof/Config.lean ====
section
/-! DEFINITION. What an instance of DESCORE is configured by (spec/00_scope.md R6) and the free values
(spec/93_implementation_defined.md U2). The OPEN parameter NLANES is an argument of Machine/Lanes.lean (log 9);
the OPEN parameter PORT_PROTOCOL is not represented (U8, log 8). -/

namespace Sys2Proof.Config

/-- R6 `BLOCK_BYTES`. -/
def blockBytes : Nat := 8

/-- R6 `KEY_BYTES`: the only key length `DERIVE` accepts. -/
def keyBytes : Nat := 8

/-- R6 `NROUNDS`. -/
def nrounds : Nat := 16

/-- The bound of a key's length that a `DERIVE` packet can announce (R6 `KEYLEN_FIELD_BITS` = 8). -/
def keyLengthBound : Nat := 2 ^ 8

/-- The bound of a stream operand's length (R6 `LEN_FIELD_BITS` = 32). -/
def streamLengthBound : Nat := 2 ^ 32

/-- The free values: what the spec leaves as `any value` (U2) is one of these bits, at a fresh number each time.
It has no body, so nothing can be proved about a value of it. Log 4. -/
opaque freeBits : (w : Nat) → Nat → BitVec w

end Sys2Proof.Config
end

