-- ==== Sys2Proof/Machine/State.lean ====
section
/-! DEFINITION. The state of DESCORE (spec/10_state.md R20 to R32, spec/20_memory.md R50), the reasons a step can
stop, and the state after hardware reset (R30, R271). -/

namespace Sys2Proof.Machine

/-- The working registers (R25): not readable by any command, and written by every command that uses them before it
reads them. One lane's `L`, `R`, `RND`, `BLK` (R26, R66). -/
structure Working where
  /-- `C`: left half of the permuted key. -/
  c : BitVec 28
  /-- `D`: right half of the permuted key. -/
  d : BitVec 28
  /-- `L`: left half of the block being processed. -/
  l : Half
  /-- `R`: right half of the block being processed. -/
  r : Half
  /-- `RND`: the round index of the loops. -/
  rnd : BitVec 5
  /-- `BLK`: the block being assembled. -/
  blk : Block
  /-- `OPC`: the opcode of the packet being received (R87). -/
  opc : Byte
  /-- `CNT`: the data bytes still to come (R87). -/
  cnt : BitVec 32
deriving DecidableEq, Repr

/-- The state of the engine and its two channels. -/
structure State where
  /-- `KS[1..16]` and, by its being `some`, `KS_VALID` (R20, R21, U1). Logs 1 and 2. -/
  ks : Option Schedule
  /-- `STATUS` bit 1, `E_KEYLEN` (R22). -/
  eKeylen : Bool
  /-- `STATUS` bit 2, `E_NOSCHED` (R22). -/
  eNosched : Bool
  /-- `STATUS` bit 3, `W_TRUNC` (R22). -/
  wTrunc : Bool
  /-- `HALTED` (R23). -/
  halted : Bool
  /-- The command channel `CMD`, its head the next byte the engine removes (R50). -/
  cmd : List Byte
  /-- The response channel `RSP`, its head the next byte the host removes (R50). -/
  rsp : List Byte
  /-- The working registers (R25). Logs 3 and 4. -/
  work : Working
  /-- The model's own: how many free values have been drawn (log 4). -/
  draws : Nat
deriving DecidableEq, Repr

/-- Why a step can find nothing to do. No command raises one of these: the spec's errors, its warning and its halt
are next states (R244, R245). All three are safe: the model stops where the engine has no step. -/
inductive Fault where
  /-- Raised by `step` when `HALTED = 1`: "the engine has no step" (R245). Safe. -/
  | halted
  /-- Raised by `step` when `CMD` is empty: the engine "has no step to take" (R257). Safe. -/
  | noCommand
  /-- Raised by `step` when the packet at the head of `CMD` is incomplete: "no step for the engine" (R275, U5).
  Safe. -/
  | incompletePacket
deriving DecidableEq, Repr

/-- Why the model could have no meaning for a command. -/
inductive Refusal where
  /-- Raised by an arm of `exec` that has no meaning yet; there is none. Safe. -/
  | notModelled (mnemonic : String)
deriving DecidableEq, Repr

/-- The working registers at reset. The spec gives them no value (R30); DESIGN CHOICE zero, log 3. -/
def Working.reset : Working :=
  { c := 0, d := 0, l := 0, r := 0, rnd := 0, blk := 0, opc := 0, cnt := 0 }

/-- The machine right after hardware reset (R30, R271). `KS` has no value (U1, log 1). -/
def State.reset : State :=
  { ks := none, eKeylen := false, eNosched := false, wTrunc := false, halted := false, cmd := [], rsp := [],
    work := Working.reset, draws := 0 }

end Sys2Proof.Machine
end

