-- ==== Sys2Proof/Machine/Flags.lean ====
section
/-! DEFINITION. `KS_VALID` and `STATUS` (spec/10_state.md R21, R22), the sticky bits, and the status codes of
responses (spec/30_encoding.md R89). -/

namespace Sys2Proof.Machine

/-- `KS_VALID`: 1 exactly when `KS` holds a schedule (R21, U1). -/
def State.ksValid (s : State) : Bool := s.ks.isSome

/-- `STATUS` as `RDST` reads it: bits 3:0 as R22 names them, bits 7:4 zero (R22, U9). -/
def State.status (s : State) : Byte :=
  BitVec.ofNat 8
    (s.ksValid.toNat + 2 * s.eKeylen.toNat + 4 * s.eNosched.toNat + 8 * s.wTrunc.toNat)

/-- The five status bytes the engine emits (R89, U11). -/
inductive StatusCode where
  | ok
  | invalidKeyLength
  | noSchedule
  | truncatedBlock
  | illegalCommand
deriving DecidableEq, Repr

/-- The value of a status byte (R89). -/
def StatusCode.code : StatusCode → Byte
  | .ok => 0x00
  | .invalidKeyLength => 0x01
  | .noSchedule => 0x02
  | .truncatedBlock => 0x10
  | .illegalCommand => 0xFF

/-- The error kinds of class *error* (R240): the command ends with its status byte alone. -/
inductive ErrorKind where
  /-- `InvalidKeyLength`, raised by `DERIVE` with `n != 8` (R241). -/
  | invalidKeyLength
  /-- `NoSchedule`, raised by a command that reads `KS` while `KS_VALID = 0` (R243). -/
  | noSchedule
deriving DecidableEq, Repr

/-- The status code of an error (R240). -/
def ErrorKind.status : ErrorKind → StatusCode
  | .invalidKeyLength => .invalidKeyLength
  | .noSchedule => .noSchedule

/-- The sticky bit an error sets (R22, R240); it is never cleared here. -/
def State.setSticky (e : ErrorKind) (s : State) : State :=
  match e with
  | .invalidKeyLength => { s with eKeylen := true }
  | .noSchedule => { s with eNosched := true }

end Sys2Proof.Machine
end

