-- ==== Sys2Proof/Machine/Bytes.lean ====
section
/-! DEFINITION. Bytes and bit vectors: the byte order (spec/20_memory.md R53, R54; spec/00_scope.md R10), DES bit
numbering (R8), reading and writing of operands and payloads (R51, R52). -/

namespace Sys2Proof

/-- The number a byte sequence spells, its first byte most significant (R10). -/
def natOfBytes (s : List Byte) : Nat := s.foldl (fun acc b => 256 * acc + b.toNat) 0

/-- `be(n, s)`: the bytes of `s` joined, the first byte most significant (R10, R53, R54). -/
def be (n : Nat) (s : List Byte) : BitVec n :=
  BitVec.ofNat n (natOfBytes s)

/-- `bytes(n, V)`: the `n/8` bytes of `V` from the most significant to the least (R10). -/
def bytes {n : Nat} (v : BitVec n) : List Byte :=
  (List.range (n / 8)).map fun i => v.extractLsb' (n - 8 * (i + 1)) 8

/-- `zeros(k)`: `k` bytes `0x00` (R10). -/
def zeros (k : Nat) : List Byte := List.replicate k 0

/-- `bitM(V, n, i)` for `1 <= i <= n`: bit `i` counted from the left starting at 1 (R8). -/
def bitM {n : Nat} (v : BitVec n) (i : Nat) : Bool := v.getLsbD (n - i)

/-- `MemRead(addr, n)`: the bytes `IN[addr .. addr+n)` of a data operand (R51). -/
def memRead (operand : List Byte) (addr n : Nat) : List Byte := (operand.drop addr).take n

/-- `MemWrite(addr, n, v)` with `n = len(v)`: sets `OUT[addr .. addr+n)` of a payload to `v` (R52). -/
def memWrite (payload : List Byte) (addr : Nat) (v : List Byte) : List Byte :=
  payload.take addr ++ v ++ payload.drop (addr + v.length)

end Sys2Proof
end

