-- ==== Sys2Proof/Syntax.lean ====
section
/-! DEFINITION. The nine commands of DESCORE (spec/30_encoding.md R81), one constructor for each row of
spec/opcode_table.json. -/

namespace Sys2Proof

/-- A command, its operands assembled as R86 says. A length field (`n` of R83, `len` of R85) is the length of
the list it counts; WellFormed holds it to the field's width. Log 13. -/
inductive Instr where
  /-- `DERIVE`, format K: the key bytes, of any length the `n` field can announce (R83, R149). -/
  | derive (key : List Byte)
  /-- `RDKS`, format Z (R150). -/
  | rdks
  /-- `RNDF`, format F with 10 data bytes (R84, R169). -/
  | rndf (half : Half) (subkey : Subkey)
  /-- `ENCB`, format F with 8 data bytes (R84, R189). -/
  | encb (block : Block)
  /-- `DECB`, format F with 8 data bytes (R84, R190). -/
  | decb (block : Block)
  /-- `ENCS`, format S: the data bytes (R85, R210). -/
  | encs (data : List Byte)
  /-- `DECS`, format S: the data bytes (R85, R211). -/
  | decs (data : List Byte)
  /-- `RST`, format Z (R230). -/
  | rst
  /-- `RDST`, format Z (R231). -/
  | rdst
deriving DecidableEq, Repr

end Sys2Proof
end

