-- ==== Sys2Proof/WellFormed.lean ====
section
/-! DEFINITION. Which commands have a packet: the operand lengths fit the length fields (spec/30_encoding.md R83,
R85). Every other operand fits by its type (R84, R92). -/

namespace Sys2Proof

/-- The check, by constructor: `0 <= n <= 255` (R83) and `0 <= len <= 2^32 - 1` (R85). -/
def Instr.wellFormed : Instr → Bool
  | .derive key => decide (key.length < Config.keyLengthBound)
  | .rdks => true
  | .rndf _ _ => true
  | .encb _ => true
  | .decb _ => true
  | .encs data => decide (data.length < Config.streamLengthBound)
  | .decs data => decide (data.length < Config.streamLengthBound)
  | .rst => true
  | .rdst => true

end Sys2Proof
end

