-- ==== Sys2Proof/Decode.lean ====
section
/-! DEFINITION. Packets: the decoder, total on any bytes (spec/30_encoding.md R80 to R87, R91, R95), the encoder,
and the text form (R93). -/

namespace Sys2Proof

/-- What the decoder finds at the head of the command channel. The four cases are the ones of R95. -/
inductive Decoded where
  /-- A complete legal packet and the bytes after it. -/
  | packet (i : Instr) (rest : List Byte)
  /-- The byte at the packet boundary is no opcode of R81 (R91); the bytes after it. -/
  | illegalOpcode (op : Byte) (rest : List Byte)
  /-- A legal packet has begun and bytes of it are missing (R275). -/
  | incompletePacket
  /-- No byte at all. -/
  | noPacket
deriving DecidableEq, Repr

/-- The data bytes of a packet: `m` of them, or the packet is incomplete (R84, R87). -/
def decodeFixed (m : Nat) (mk : List Byte → Instr) (bs : List Byte) : Decoded :=
  if bs.length < m then .incompletePacket else .packet (mk (bs.take m)) (bs.drop m)

/-- Format K: a one-byte length, then that many data bytes (R83). -/
def decodeKey (mk : List Byte → Instr) : List Byte → Decoded
  | [] => .incompletePacket
  | n :: bs => decodeFixed n.toNat mk bs

/-- Format S: a four-byte length, most significant byte first, then that many data bytes (R85). -/
def decodeStream (mk : List Byte → Instr) (bs : List Byte) : Decoded :=
  if bs.length < 4 then .incompletePacket
  else decodeFixed (be 32 (bs.take 4)).toNat mk (bs.drop 4)

/-- A packet by its opcode byte (R81); `bs` are the bytes after it. Operands are assembled as R86 says. -/
def decodePacket (op : Byte) (bs : List Byte) : Decoded :=
  match op.toNat with
  | 1 => decodeKey .derive bs
  | 2 => .packet .rdks bs
  | 3 => decodeFixed 10 (fun d => .rndf (be 32 (memRead d 0 4)) (be 48 (memRead d 4 6))) bs
  | 4 => decodeFixed 8 (fun d => .encb (be 64 (memRead d 0 8))) bs
  | 5 => decodeFixed 8 (fun d => .decb (be 64 (memRead d 0 8))) bs
  | 6 => decodeStream .encs bs
  | 7 => decodeStream .decs bs
  | 8 => .packet .rst bs
  | 9 => .packet .rdst bs
  | _ => .illegalOpcode op bs

/-- The decoder: the packet at the head of any bytes (R87, R95). -/
def decode : List Byte → Decoded
  | [] => .noPacket
  | op :: bs => decodePacket op bs

/-- The opcode byte of a command (R81). -/
def Instr.opcode : Instr → Byte
  | .derive _ => 0x01
  | .rdks => 0x02
  | .rndf _ _ => 0x03
  | .encb _ => 0x04
  | .decb _ => 0x05
  | .encs _ => 0x06
  | .decs _ => 0x07
  | .rst => 0x08
  | .rdst => 0x09

/-- The data operand of a command, as the bytes of its packet (R83 to R85, R51). -/
def Instr.operand : Instr → List Byte
  | .derive key => key
  | .rdks => []
  | .rndf half subkey => bytes half ++ bytes subkey
  | .encb block => bytes block
  | .decb block => bytes block
  | .encs data => data
  | .decs data => data
  | .rst => []
  | .rdst => []

/-- The length field between the opcode and the data operand: one byte in format K (R83), four in format S (R85),
none in formats Z and F (R82, R84). -/
def Instr.lengthField : Instr → List Byte
  | .derive key => [BitVec.ofNat 8 key.length]
  | .rdks => []
  | .rndf _ _ => []
  | .encb _ => []
  | .decb _ => []
  | .encs data => bytes (BitVec.ofNat 32 data.length)
  | .decs data => bytes (BitVec.ofNat 32 data.length)
  | .rst => []
  | .rdst => []

/-- The packet of a command (R80 to R85). -/
def encode (i : Instr) : List Byte := i.opcode :: (i.lengthField ++ i.operand)

/-- The length of the packet that begins with these bytes, known from its first byte (formats Z and F), its first
two (format K) or its first five (format S) (R87); `none` for an illegal opcode or too few bytes to tell. -/
def packetLength : List Byte → Option Nat
  | [] => none
  | op :: bs =>
    match op.toNat with
    | 1 => bs.head?.map fun n => 2 + n.toNat
    | 2 => some 1
    | 3 => some 11
    | 4 => some 9
    | 5 => some 9
    | 6 => if bs.length < 4 then none else some (5 + (be 32 (bs.take 4)).toNat)
    | 7 => if bs.length < 4 then none else some (5 + (be 32 (bs.take 4)).toNat)
    | 8 => some 1
    | 9 => some 1
    | _ => none

/-- The bytes of an instruction numbered as spec/opcode_table.json numbers them: bit 0 is the least significant bit
of the first byte, and every bit above `nbits` is 0, up to the end of the packet that the first bytes announce. -/
def layTableWord (nbits w : Nat) : List Byte :=
  let given : List Byte := (List.range ((nbits + 7) / 8)).map fun k => BitVec.ofNat 8 (w >>> (8 * k))
  given ++ zeros ((packetLength (given ++ zeros 5)).getD 0 - given.length)

/-- The instruction the decoder reads from such an instruction word; none where it refuses. -/
def decodeTableWord (nbits w : Nat) : Option Instr :=
  match decode (layTableWord nbits w) with
  | .packet i _ => some i
  | .illegalOpcode _ _ => none
  | .incompletePacket => none
  | .noPacket => none

/-- The mnemonic of a command (R81). -/
def Instr.mnemonic : Instr → String
  | .derive _ => "DERIVE"
  | .rdks => "RDKS"
  | .rndf _ _ => "RNDF"
  | .encb _ => "ENCB"
  | .decb _ => "DECB"
  | .encs _ => "ENCS"
  | .decs _ => "DECS"
  | .rst => "RST"
  | .rdst => "RDST"

/-- One upper-case hexadecimal digit. -/
def hexDigit (d : Nat) : Char := "0123456789ABCDEF".toList.getD d '0'

/-- Bytes in hexadecimal, most significant digit first, two digits a byte, in packet order (R93). -/
def hexBytes (s : List Byte) : List Char :=
  s.flatMap fun b => [hexDigit (b.toNat / 16), hexDigit (b.toNat % 16)]

/-- The operands of a command in its text form (R93). -/
def Instr.operandText : Instr → List Char
  | .derive key => hexBytes key
  | .rdks => []
  | .rndf half subkey => hexBytes (bytes half) ++ ", ".toList ++ hexBytes (bytes subkey)
  | .encb block => hexBytes (bytes block)
  | .decb block => hexBytes (bytes block)
  | .encs data => hexBytes data
  | .decs data => hexBytes data
  | .rst => []
  | .rdst => []

/-- The text form of a command: its mnemonic, and its operands where it has any (R93). -/
def Instr.assembly (i : Instr) : String :=
  if i.operandText = [] then i.mnemonic else i.mnemonic ++ " " ++ String.ofList i.operandText

end Sys2Proof
end

