-- ==== Sys2Proof/Machine/Operands.lean ====
section
/-! DEFINITION. The operand and response forms: the commands' payload lengths (spec/30_encoding.md R90) and the
groups of a stream operand (spec/20_memory.md R56). -/

namespace Sys2Proof

/-- Group `j` of a data operand: `IN[8j .. 8j+8)` (R56); the last one may be shorter. -/
def group (operand : List Byte) (j : Nat) : List Byte :=
  memRead operand (Config.blockBytes * j) Config.blockBytes

/-- The length in bytes of a command's payload when its status is `OK`, or `TruncatedBlock` for `DECS` (R90). -/
def Instr.payloadLength : Instr → Nat
  | .derive _ => 0
  | .rdks => 96
  | .rndf _ _ => 4
  | .encb _ => 8
  | .decb _ => 8
  | .encs data => 8 * ((data.length + 7) / 8)
  | .decs data => 8 * (data.length / 8)
  | .rst => 0
  | .rdst => 1

end Sys2Proof
end

