-- ==== Sys2Proof/Machine/Ops.lean ====
section
/-! DEFINITION. The shared operations: taking a packet off `CMD`, answering a response, raising an error or the
warning, the illegal command, and the guard on `KS_VALID` (spec/30_encoding.md R87, R88; spec/60_exceptions.md R243
to R245). -/

namespace Sys2Proof.Machine

/-- Free contents of the working registers, number `n` (U2): nothing constrains them. Log 4. -/
def Working.free (n : Nat) : Working :=
  { c := Config.freeBits 28 (8 * n), d := Config.freeBits 28 (8 * n + 1), l := Config.freeBits 32 (8 * n + 2),
    r := Config.freeBits 32 (8 * n + 3), rnd := Config.freeBits 5 (8 * n + 4),
    blk := Config.freeBits 64 (8 * n + 5), opc := Config.freeBits 8 (8 * n + 6),
    cnt := Config.freeBits 32 (8 * n + 7) }

/-- A packet has been received whole: its bytes have left `CMD`, `OPC` holds its opcode and `CNT` has reached 0
(R87, R244 item 1). -/
def State.fetched (i : Instr) (rest : List Byte) (s : State) : State :=
  { s with cmd := rest, work := { s.work with opc := i.opcode, cnt := 0 } }

/-- `respond(status, payload)` ends a command: the status byte and then the payload are appended to `RSP` (R63,
R88). What the working registers hold afterwards is free (U2). -/
def State.respond (st : StatusCode) (payload : List Byte) (s : State) : State :=
  { s with rsp := s.rsp ++ st.code :: payload, work := Working.free s.draws, draws := s.draws + 1 }

/-- Raising an error: its sticky bit is set, no other register changes, and the response is its status byte alone
(R244). There is no saved context, no vector and no return (R250, R251). -/
def State.raiseError (e : ErrorKind) (s : State) : State :=
  (s.setSticky e).respond e.status []

/-- The warning `TruncatedBlock`: `W_TRUNC` is set and the payload still follows the status byte (R242, R244). -/
def State.warnTruncated (payload : List Byte) (s : State) : State :=
  { s with wTrunc := true }.respond .truncatedBlock payload

/-- `IllegalCommand`: the one byte is consumed, the byte `0xFF` is answered, the engine halts; `KS` and `STATUS`
keep their values (R91, R245). -/
def State.illegalCommand (rest : List Byte) (s : State) : State :=
  { s with cmd := rest, halted := true }.respond .illegalCommand []

/-- The guard of every command that reads `KS`: `NoSchedule` while `KS_VALID = 0` (R21, R243). -/
def State.withSchedule (s : State) (run : Schedule → State) : State :=
  match s.ks with
  | none => s.raiseError .noSchedule
  | some K => run K

end Sys2Proof.Machine
end

