-- ==== Sys2Proof/Machine/Tables.lean ====
section
/-! DEFINITION. The constant tables and the permutation primitive (spec/40_tables.md R110 to R120). They are constants,
not state (R24). The spec supplies every entry but the rotation amounts from general knowledge; log 11. -/

namespace Sys2Proof.Machine

/-- `permute(T, V, n)`: bit `j` of the result, counted from the left, is bit `T[j]` of `V` (R110). -/
def permute {n m : Nat} (table : List Nat) (v : BitVec n) : BitVec m :=
  BitVec.ofNat m (table.foldl (fun acc j => 2 * acc + (bitM v j).toNat) 0)

/-- `IP`, the initial permutation: 64 entries over 64 bits (R111). -/
def tableIP : List Nat :=
  [58, 50, 42, 34, 26, 18, 10, 2] ++
  [60, 52, 44, 36, 28, 20, 12, 4] ++
  [62, 54, 46, 38, 30, 22, 14, 6] ++
  [64, 56, 48, 40, 32, 24, 16, 8] ++
  [57, 49, 41, 33, 25, 17, 9, 1] ++
  [59, 51, 43, 35, 27, 19, 11, 3] ++
  [61, 53, 45, 37, 29, 21, 13, 5] ++
  [63, 55, 47, 39, 31, 23, 15, 7]

/-- `FP`, the final permutation: 64 entries over 64 bits (R112). -/
def tableFP : List Nat :=
  [40, 8, 48, 16, 56, 24, 64, 32] ++
  [39, 7, 47, 15, 55, 23, 63, 31] ++
  [38, 6, 46, 14, 54, 22, 62, 30] ++
  [37, 5, 45, 13, 53, 21, 61, 29] ++
  [36, 4, 44, 12, 52, 20, 60, 28] ++
  [35, 3, 43, 11, 51, 19, 59, 27] ++
  [34, 2, 42, 10, 50, 18, 58, 26] ++
  [33, 1, 41, 9, 49, 17, 57, 25]

/-- `PC1`, the key permutation: 56 entries over the 64-bit key (R113). -/
def tablePC1 : List Nat :=
  [57, 49, 41, 33, 25, 17, 9] ++
  [1, 58, 50, 42, 34, 26, 18] ++
  [10, 2, 59, 51, 43, 35, 27] ++
  [19, 11, 3, 60, 52, 44, 36] ++
  [63, 55, 47, 39, 31, 23, 15] ++
  [7, 62, 54, 46, 38, 30, 22] ++
  [14, 6, 61, 53, 45, 37, 29] ++
  [21, 13, 5, 28, 20, 12, 4]

/-- `PC2`, the key compression: 48 entries over the 56 bits of `C || D` (R114). -/
def tablePC2 : List Nat :=
  [14, 17, 11, 24, 1, 5] ++
  [3, 28, 15, 6, 21, 10] ++
  [23, 19, 12, 4, 26, 8] ++
  [16, 7, 27, 20, 13, 2] ++
  [41, 52, 31, 37, 47, 55] ++
  [30, 40, 51, 45, 33, 48] ++
  [44, 49, 39, 56, 34, 53] ++
  [46, 42, 50, 36, 29, 32]

/-- `E`, the bit expansion: 48 entries over 32 bits (R115). -/
def tableE : List Nat :=
  [32, 1, 2, 3, 4, 5] ++
  [4, 5, 6, 7, 8, 9] ++
  [8, 9, 10, 11, 12, 13] ++
  [12, 13, 14, 15, 16, 17] ++
  [16, 17, 18, 19, 20, 21] ++
  [20, 21, 22, 23, 24, 25] ++
  [24, 25, 26, 27, 28, 29] ++
  [28, 29, 30, 31, 32, 1]

/-- `P`, the permutation at the end of every round function: 32 entries over 32 bits (R116). -/
def tableP : List Nat :=
  [16, 7, 20, 21] ++
  [29, 12, 28, 17] ++
  [1, 15, 23, 26] ++
  [5, 18, 31, 10] ++
  [2, 8, 24, 14] ++
  [32, 27, 3, 9] ++
  [19, 13, 30, 6] ++
  [22, 11, 4, 25]

/-- `SBoxMatrix[0]`, the standard's S1: four rows of sixteen columns (R117). -/
def sboxMatrix0 : List (List Nat) :=
  [[14, 4, 13, 1, 2, 15, 11, 8, 3, 10, 6, 12, 5, 9, 0, 7],
   [0, 15, 7, 4, 14, 2, 13, 1, 10, 6, 12, 11, 9, 5, 3, 8],
   [4, 1, 14, 8, 13, 6, 2, 11, 15, 12, 9, 7, 3, 10, 5, 0],
   [15, 12, 8, 2, 4, 9, 1, 7, 5, 11, 3, 14, 10, 0, 6, 13]]

/-- `SBoxMatrix[1]`, the standard's S2: four rows of sixteen columns (R117). -/
def sboxMatrix1 : List (List Nat) :=
  [[15, 1, 8, 14, 6, 11, 3, 4, 9, 7, 2, 13, 12, 0, 5, 10],
   [3, 13, 4, 7, 15, 2, 8, 14, 12, 0, 1, 10, 6, 9, 11, 5],
   [0, 14, 7, 11, 10, 4, 13, 1, 5, 8, 12, 6, 9, 3, 2, 15],
   [13, 8, 10, 1, 3, 15, 4, 2, 11, 6, 7, 12, 0, 5, 14, 9]]

/-- `SBoxMatrix[2]`, the standard's S3: four rows of sixteen columns (R117). -/
def sboxMatrix2 : List (List Nat) :=
  [[10, 0, 9, 14, 6, 3, 15, 5, 1, 13, 12, 7, 11, 4, 2, 8],
   [13, 7, 0, 9, 3, 4, 6, 10, 2, 8, 5, 14, 12, 11, 15, 1],
   [13, 6, 4, 9, 8, 15, 3, 0, 11, 1, 2, 12, 5, 10, 14, 7],
   [1, 10, 13, 0, 6, 9, 8, 7, 4, 15, 14, 3, 11, 5, 2, 12]]

/-- `SBoxMatrix[3]`, the standard's S4: four rows of sixteen columns (R117). -/
def sboxMatrix3 : List (List Nat) :=
  [[7, 13, 14, 3, 0, 6, 9, 10, 1, 2, 8, 5, 11, 12, 4, 15],
   [13, 8, 11, 5, 6, 15, 0, 3, 4, 7, 2, 12, 1, 10, 14, 9],
   [10, 6, 9, 0, 12, 11, 7, 13, 15, 1, 3, 14, 5, 2, 8, 4],
   [3, 15, 0, 6, 10, 1, 13, 8, 9, 4, 5, 11, 12, 7, 2, 14]]

/-- `SBoxMatrix[4]`, the standard's S5: four rows of sixteen columns (R117). -/
def sboxMatrix4 : List (List Nat) :=
  [[2, 12, 4, 1, 7, 10, 11, 6, 8, 5, 3, 15, 13, 0, 14, 9],
   [14, 11, 2, 12, 4, 7, 13, 1, 5, 0, 15, 10, 3, 9, 8, 6],
   [4, 2, 1, 11, 10, 13, 7, 8, 15, 9, 12, 5, 6, 3, 0, 14],
   [11, 8, 12, 7, 1, 14, 2, 13, 6, 15, 0, 9, 10, 4, 5, 3]]

/-- `SBoxMatrix[5]`, the standard's S6: four rows of sixteen columns (R117). -/
def sboxMatrix5 : List (List Nat) :=
  [[12, 1, 10, 15, 9, 2, 6, 8, 0, 13, 3, 4, 14, 7, 5, 11],
   [10, 15, 4, 2, 7, 12, 9, 5, 6, 1, 13, 14, 0, 11, 3, 8],
   [9, 14, 15, 5, 2, 8, 12, 3, 7, 0, 4, 10, 1, 13, 11, 6],
   [4, 3, 2, 12, 9, 5, 15, 10, 11, 14, 1, 7, 6, 0, 8, 13]]

/-- `SBoxMatrix[6]`, the standard's S7: four rows of sixteen columns (R117). -/
def sboxMatrix6 : List (List Nat) :=
  [[4, 11, 2, 14, 15, 0, 8, 13, 3, 12, 9, 7, 5, 10, 6, 1],
   [13, 0, 11, 7, 4, 9, 1, 10, 14, 3, 5, 12, 2, 15, 8, 6],
   [1, 4, 11, 13, 12, 3, 7, 14, 10, 15, 6, 8, 0, 5, 9, 2],
   [6, 11, 13, 8, 1, 4, 10, 7, 9, 5, 0, 15, 14, 2, 3, 12]]

/-- `SBoxMatrix[7]`, the standard's S8: four rows of sixteen columns (R117). -/
def sboxMatrix7 : List (List Nat) :=
  [[13, 2, 8, 4, 6, 15, 11, 1, 10, 9, 3, 14, 5, 0, 12, 7],
   [1, 15, 13, 8, 10, 3, 7, 4, 12, 5, 6, 11, 0, 14, 9, 2],
   [7, 11, 4, 1, 9, 12, 14, 2, 0, 6, 10, 13, 15, 3, 5, 8],
   [2, 1, 14, 7, 4, 10, 8, 13, 15, 12, 9, 0, 3, 5, 6, 11]]

/-- `SBoxMatrix[0..7]` (R117). -/
def sboxMatrices : List (List (List Nat)) :=
  [sboxMatrix0, sboxMatrix1, sboxMatrix2, sboxMatrix3, sboxMatrix4, sboxMatrix5, sboxMatrix6, sboxMatrix7]

/-- The row an S-box index selects: `2*B[5] + B[0]` (R118). -/
def sboxRow (b : BitVec 6) : Nat := 2 * (bitM b 1).toNat + (bitM b 6).toNat

/-- The column an S-box index selects: `B[4:1]` (R118). -/
def sboxCol (b : BitVec 6) : Nat :=
  8 * (bitM b 2).toNat + 4 * (bitM b 3).toNat + 2 * (bitM b 4).toNat + (bitM b 5).toNat

/-- `SBoxMatrix[i][r][c]` (R117). -/
def sboxEntry (i r c : Nat) : Nat := ((sboxMatrices.getD i []).getD r []).getD c 0

/-- `sbox(i, B)`, the S-box lookup (R118). -/
def sbox (i : Nat) (b : BitVec 6) : BitVec 4 := BitVec.ofNat 4 (sboxEntry i (sboxRow b) (sboxCol b))

/-- `SHIFTS[1..16]`: the left-rotation amount of each round (R119). -/
def tableShifts : List Nat := [1, 1, 2, 2, 2, 2, 2, 2] ++ [1, 2, 2, 2, 2, 2, 2, 1]

/-- `SHIFTS[i]`, for `i` in 1..16 (R119). -/
def shiftAmount (i : Nat) : Nat := tableShifts.getD (i - 1) 0

/-- `rol28(x, s)` for `s` in 1, 2: left rotation within 28 bits (R9). -/
def rol28 (x : BitVec 28) (s : Nat) : BitVec 28 := (x <<< s) + (x >>> (28 - s))

end Sys2Proof.Machine
end

