-- ==== Sys2Proof/Machine/KeySchedule.lean ====
section
/-! DEFINITION. The key schedule generator and the commands `DERIVE` and `RDKS` (spec/41_key_schedule.md R140 to
R151). -/

namespace Sys2Proof.Machine

/-- The two 28-bit halves of the permuted key. -/
structure Halves where
  c : BitVec 28
  d : BitVec 28
deriving DecidableEq, Repr

/-- `C0` and `D0`: the key permutation and the split (R142). -/
def initialHalves (key : Block) : Halves :=
  let cd : BitVec 56 := permute tablePC1 key
  { c := cd.extractLsb' 28 28, d := cd.extractLsb' 0 28 }

/-- Both halves rotated left by the same amount, each within its own 28 bits (R143). -/
def Halves.rotate (h : Halves) (s : Nat) : Halves := { c := rol28 h.c s, d := rol28 h.d s }

/-- `C_i` and `D_i`: the rotations accumulate (R143). -/
def halvesAfter (key : Block) : Nat → Halves
  | 0 => initialHalves key
  | i + 1 => (halvesAfter key i).rotate (shiftAmount (i + 1))

/-- The key compression of a pair of halves: `permute(PC2, C || D, 56)` (R144). -/
def compressHalves (h : Halves) : Subkey := permute tablePC2 (h.c ++ h.d)

/-- `K[i]`, from the halves after the rotation of round `i` (R144). -/
def subkeyOf (key : Block) (i : Nat) : Subkey := compressHalves (halvesAfter key i)

/-- The sixteen subkeys of a 64-bit key (R144, R145). -/
def scheduleOf (key : Block) : Schedule := Vector.ofFn fun i => subkeyOf key (i.val + 1)

/-- `deriveSchedule(key)`: every length but 8 is rejected before anything else (R140, R141, R145, R146). -/
def deriveSchedule (key : List Byte) : Except ErrorKind Schedule :=
  if key.length = Config.keyBytes then .ok (scheduleOf (be 64 key)) else .error .invalidKeyLength

/-- Element `i` in 1..16 of a schedule: `K[i]`, `KS[i]` (R12, R20). -/
def scheduleKey (K : Schedule) (i : Nat) : Subkey := K.toList.getD (i - 1) 0

/-- One turn of R145's loop on the working registers: `RND`, `C`, `D` are written and `K[RND]` is produced. -/
def deriveTurn (p : Working × Schedule) (i : Nat) : Working × Schedule :=
  let w : Working :=
    { p.1 with rnd := BitVec.ofNat 5 i, c := rol28 p.1.c (shiftAmount i), d := rol28 p.1.d (shiftAmount i) }
  (w, p.2.setIfInBounds (i - 1) (compressHalves { c := w.c, d := w.d }))

/-- R145 as it stands, on the working registers, from whatever they held before (R25). -/
def deriveOn (w : Working) (key : Block) : Working × Schedule :=
  let h := initialHalves key
  (List.range' 1 Config.nrounds).foldl deriveTurn ({ w with c := h.c, d := h.d }, Vector.replicate 16 0)

/-- `DERIVE` (R149): all sixteen registers, `KS_VALID` and `STATUS` bit 0 in one step, or `InvalidKeyLength`. -/
def execDerive (key : List Byte) (s : State) : Host.Outcome State Fault Refusal :=
  if key.length = Config.keyBytes then
    .next ({ s with ks := some (deriveOn s.work (be 64 key)).2 }.respond .ok [])
  else .next (s.raiseError .invalidKeyLength)

/-- The payload of `RDKS`: subkeys 1 to 16, six bytes each, most significant byte first (R90, R150). -/
def schedulePayload (K : Schedule) : List Byte := K.toList.flatMap fun k => bytes k

/-- `RDKS` (R150). -/
def execRdks (s : State) : Host.Outcome State Fault Refusal :=
  .next (s.withSchedule fun K => s.respond .ok (schedulePayload K))

end Sys2Proof.Machine
end

