-- ==== Sys2Proof/Machine/RoundFunction.lean ====
section
/-! DEFINITION. The round function and the command `RNDF` (spec/42_round_function.md R160 to R169). -/

namespace Sys2Proof.Machine

/-- Group `i` of the mixed value: `B_i = Y[47 - 6i : 42 - 6i]` (R163). -/
def sboxGroup (y : Subkey) (i : Nat) : BitVec 6 := y.extractLsb' (42 - 6 * i) 6

/-- Substitution and concatenation: `Z = N_0 || N_1 || .. || N_7` with `N_i = sbox(i, B_i)` (R164, R165). -/
def substitute (y : Subkey) : Half :=
  sbox 0 (sboxGroup y 0) ++ sbox 1 (sboxGroup y 1) ++ sbox 2 (sboxGroup y 2) ++ sbox 3 (sboxGroup y 3) ++
  sbox 4 (sboxGroup y 4) ++ sbox 5 (sboxGroup y 5) ++ sbox 6 (sboxGroup y 6) ++ sbox 7 (sboxGroup y 7)

/-- `f(Rv, Kv)`, which the source calls `round`: expansion, key mixing, substitution, permutation (R160 to R167). -/
def roundF (half : Half) (subkey : Subkey) : Half :=
  permute tableP (substitute (permute tableE half ^^^ subkey))

/-- `RNDF` (R169): the round function once, the subkey taken from the packet. -/
def execRndf (half : Half) (subkey : Subkey) (s : State) : Host.Outcome State Fault Refusal :=
  .next (s.respond .ok (bytes (roundF half subkey)))

end Sys2Proof.Machine
end

