-- ==== Sys2Proof/Machine/BlockCipher.lean ====
section
/-! DEFINITION. The block cipher core and the commands `ENCB` and `DECB` (spec/43_block_cipher.md R180 to R191). -/

namespace Sys2Proof.Machine

/-- `dir` of R186, fixed by the opcode for the whole command (R191). -/
inductive Direction where
  | enc
  | dec
deriving DecidableEq, Repr

/-- The two 32-bit halves of the block being processed. -/
structure LR where
  l : Half
  r : Half
deriving DecidableEq, Repr

/-- Initial permutation and split: `L0` is the left half (R181). -/
def initialSplit (block : Block) : LR :=
  let v : Block := permute tableIP block
  { l := v.extractLsb' 32 32, r := v.extractLsb' 0 32 }

/-- One round: `L_i = R_(i-1)`, `R_i = L_(i-1) ^ f(R_(i-1), k_i)`, both from the values before the round (R182). -/
def feistelRound (x : LR) (k : Subkey) : LR := { l := x.r, r := x.l ^^^ roundF x.r k }

/-- The subkey of round `i`: `K[i]` to encrypt (R183), `K[17 - i]` to decrypt (R184). -/
def roundKey (dir : Direction) (K : Schedule) (i : Nat) : Subkey :=
  match dir with
  | .enc => scheduleKey K i
  | .dec => scheduleKey K (17 - i)

/-- Swap and final permutation of `R16 || L16` (R185). -/
def finalJoin (x : LR) : Block := permute tableFP (x.r ++ x.l)

/-- `feistel(block, K, dir)`: sixteen rounds (R186). -/
def feistel (block : Block) (K : Schedule) (dir : Direction) : Block :=
  finalJoin ((List.range' 1 Config.nrounds).foldl (fun x i => feistelRound x (roundKey dir K i)) (initialSplit block))

/-- `encryptBlock` (R180, R186). -/
def encryptBlock (block : Block) (K : Schedule) : Block := feistel block K .enc

/-- `decryptBlock` (R180, R186). -/
def decryptBlock (block : Block) (K : Schedule) : Block := feistel block K .dec

/-- One turn of R186's loop on the working registers: `RND`, `L`, `R` are written. -/
def feistelTurn (dir : Direction) (K : Schedule) (w : Working) (i : Nat) : Working :=
  { w with rnd := BitVec.ofNat 5 i, l := w.r, r := w.l ^^^ roundF w.r (roundKey dir K i) }

/-- R186 as it stands, on the working registers, from whatever they held before (R25). -/
def feistelOn (w : Working) (block : Block) (K : Schedule) (dir : Direction) : Working × Block :=
  let x := initialSplit block
  let w' := (List.range' 1 Config.nrounds).foldl (feistelTurn dir K) { w with blk := block, l := x.l, r := x.r }
  (w', finalJoin { l := w'.l, r := w'.r })

/-- `ENCB` (R189). -/
def execEncb (block : Block) (s : State) : Host.Outcome State Fault Refusal :=
  .next (s.withSchedule fun K => s.respond .ok (bytes (feistelOn s.work block K .enc).2))

/-- `DECB` (R190). -/
def execDecb (block : Block) (s : State) : Host.Outcome State Fault Refusal :=
  .next (s.withSchedule fun K => s.respond .ok (bytes (feistelOn s.work block K .dec).2))

end Sys2Proof.Machine
end

