-- ==== Sys2Proof/Machine/Stream.lean ====
section
/-! DEFINITION. The block-streaming ECB pipeline and the commands `ENCS` and `DECS` (spec/44_stream_pipeline.md R200
to R213). -/

namespace Sys2Proof.Machine

/-- `chunk(s)`: groups of eight bytes, the last one extended with zero bytes (R200). -/
def chunk (s : List Byte) : List Block :=
  let nb := (s.length + 7) / 8
  let p := s ++ zeros (8 * nb - s.length)
  (List.range nb).map fun j => be 64 (group p j)

/-- `deserialise(s)`: the full groups of eight bytes, and whether trailing bytes were dropped (R201). -/
def deserialise (s : List Byte) : List Block × Bool :=
  ((List.range (s.length / 8)).map fun j => be 64 (group s j), decide (s.length % 8 ≠ 0))

/-- `process(blocks, schedule, direction)`: each block on its own (R202). -/
def process (blocks : List Block) (K : Schedule) (dir : Direction) : List Block :=
  blocks.map fun b => feistel b K dir

/-- `unchunk(blocks)`: each block's eight bytes in sequence, nothing trimmed (R203). -/
def unchunk (blocks : List Block) : List Byte := blocks.flatMap fun b => bytes b

/-- `encryptStream(s, K)` (R204). -/
def encryptStream (s : List Byte) (K : Schedule) : List Byte := unchunk (process (chunk s) K .enc)

/-- `decryptStream(s, K)` (R205). -/
def decryptStream (s : List Byte) (K : Schedule) : List Byte × Bool :=
  (unchunk (process (deserialise s).1 K .dec), (deserialise s).2)

/-- The blocks of a stream one after another on the working registers of one lane (R25, R66, R210, R211). -/
def processOn (w : Working) (K : Schedule) (dir : Direction) : List Block → List Block
  | [] => []
  | b :: bs => (feistelOn w b K dir).2 :: processOn (feistelOn w b K dir).1 K dir bs

/-- `ENCS` (R210). -/
def execEncs (data : List Byte) (s : State) : Host.Outcome State Fault Refusal :=
  .next (s.withSchedule fun K => s.respond .ok (unchunk (processOn s.work K .enc (chunk data))))

/-- `DECS` (R211): `NoSchedule` goes before `TruncatedBlock` (R249). -/
def execDecs (data : List Byte) (s : State) : Host.Outcome State Fault Refusal :=
  .next (s.withSchedule fun K =>
    let payload := unchunk (processOn s.work K .dec (deserialise data).1)
    if data.length % 8 ≠ 0 then s.warnTruncated payload else s.respond .ok payload)

end Sys2Proof.Machine
end

