-- ==== Sys2Proof/Machine/System.lean ====
section
/-! DEFINITION. The system commands `RST` and `RDST` (spec/45_system_commands.md R230, R231). -/

namespace Sys2Proof.Machine

/-- The registers cleared by a reset: `KS` loses its value, and with it `KS_VALID`; every bit of `STATUS` is 0 (R230,
R271). -/
def State.clearRegisters (s : State) : State :=
  { s with ks := none, eKeylen := false, eNosched := false, wTrunc := false }

/-- `RST` (R230): the channels are left alone but for the command's own packet and response. -/
def execRst (s : State) : Host.Outcome State Fault Refusal :=
  .next (s.clearRegisters.respond .ok [])

/-- `RDST` (R231): reading `STATUS` clears nothing. -/
def execRdst (s : State) : Host.Outcome State Fault Refusal :=
  .next (s.respond .ok [s.status])

end Sys2Proof.Machine
end

