-- ==== Sys2Proof/Machine/Dispatch.lean ====
section
/-! DEFINITION. One arm for each command. -/

namespace Sys2Proof.Machine

def exec (i : Instr) (s : State) : Host.Outcome State Fault Refusal :=
  match i with
  | .derive key => Sys2Proof.Machine.execDerive key s
  | .rdks => Sys2Proof.Machine.execRdks s
  | .rndf half subkey => Sys2Proof.Machine.execRndf half subkey s
  | .encb block => Sys2Proof.Machine.execEncb block s
  | .decb block => Sys2Proof.Machine.execDecb block s
  | .encs data => Sys2Proof.Machine.execEncs data s
  | .decs data => Sys2Proof.Machine.execDecs data s
  | .rst => Sys2Proof.Machine.execRst s
  | .rdst => Sys2Proof.Machine.execRdst s

end Sys2Proof.Machine
end

