-- ==== Sys2Proof/Machine/Step.lean ====
section
/-! DEFINITION. One step of the engine: the packet at the head of `CMD`, whole (spec/20_memory.md R62,
spec/30_encoding.md R95, spec/60_exceptions.md R245, spec/70_reset_and_hazards.md R275). -/

namespace Sys2Proof.Machine

/-- A halted engine has no step (R23, R245). Otherwise the four cases of R95: a complete packet is consumed and its
command executed; an illegal opcode halts the engine; nothing and an incomplete packet leave it without a step
(R257, R275). Logs 5, 6, 7. -/
def step (s : State) : Host.Outcome State Fault Refusal :=
  if s.halted then .fault .halted
  else
    match decode s.cmd with
    | .packet i rest => exec i (s.fetched i rest)
    | .illegalOpcode _ rest => .next (s.illegalCommand rest)
    | .incompletePacket => .fault .incompletePacket
    | .noPacket => .fault .noCommand

/-- The packet of an instruction word placed at the head of `CMD`, where `step` takes its next packet. An engine
that is halted takes none, so `HALTED` is 0 in the result. Log 12. -/
def State.withFetchWord (s : State) (nbits w : Nat) : State :=
  { s with halted := false, cmd := layTableWord nbits w ++ s.cmd }

end Sys2Proof.Machine
end

