-- ==== Sys2Proof/Machine/TableChecks.lean ====
section
/-! DEFINITION. The consistency checks of the tables, one definition for each item of spec/40_tables.md R121, over the
entries the machine computes with. -/

namespace Sys2Proof.Machine

/-- Entry `j` of a table, counted from 1 (R11, R110). -/
def tableEntry (table : List Nat) (j : Nat) : Nat := table.getD (j - 1) 0

/-- The table lists every number of `1..n` once and nothing else. -/
abbrev isPermutationOf (n : Nat) (table : List Nat) : Prop :=
  table.length = n ∧ ∀ j ∈ List.range' 1 n, table.count j = 1

/-- Item 1, the entries: `IP` and `FP` are permutations of 1..64, `IP[FP[j]] = j` and `FP[IP[j]] = j`. -/
abbrev ipFpInverse : Prop :=
  isPermutationOf 64 tableIP ∧ isPermutationOf 64 tableFP ∧
  ∀ j ∈ List.range' 1 64, tableEntry tableIP (tableEntry tableFP j) = j ∧ tableEntry tableFP (tableEntry tableIP j) = j

/-- Item 1, the blocks: `permute(FP, permute(IP, V, 64), 64) = V` for every `V`. -/
def fpUndoesIp : Prop := ∀ v : Block, permute (m := 64) tableFP (permute (m := 64) tableIP v) = v

/-- Item 2: `PC1` has 56 distinct entries and omits exactly the multiples of 8. -/
abbrev pc1OmitsMultiplesOfEight : Prop :=
  tablePC1.length = 56 ∧ tablePC1.Nodup ∧ (∀ j ∈ tablePC1, 1 ≤ j ∧ j ≤ 64) ∧
  ∀ j ∈ List.range' 1 64, j ∉ tablePC1 ↔ j % 8 = 0

/-- Item 3: `PC2` has 48 distinct entries out of 1..56. -/
abbrev pc2SelectsDistinctBits : Prop :=
  tablePC2.length = 48 ∧ tablePC2.Nodup ∧ ∀ j ∈ tablePC2, 1 ≤ j ∧ j ≤ 56

/-- Item 4: `E` has 48 entries over 1..32, sixteen values occurring twice and sixteen once. -/
abbrev eRepeatsSixteenBits : Prop :=
  tableE.length = 48 ∧ (∀ j ∈ tableE, 1 ≤ j ∧ j ≤ 32) ∧
  ((List.range' 1 32).filter fun j => tableE.count j = 2).length = 16 ∧
  ((List.range' 1 32).filter fun j => tableE.count j = 1).length = 16

/-- Item 5: `P` is a permutation of 1..32. -/
abbrev pIsPermutation : Prop := isPermutationOf 32 tableP

/-- Item 6: every row of every `SBoxMatrix[i]` is a permutation of 0..15; eight matrices of four rows (R117). -/
abbrev sboxRowsArePermutations : Prop :=
  sboxMatrices.length = 8 ∧
  ∀ matrix ∈ sboxMatrices, matrix.length = 4 ∧
    ∀ row ∈ matrix, row.length = 16 ∧ ∀ v ∈ List.range 16, row.count v = 1

/-- Item 7, the amounts: sixteen of them, their sum 28. -/
abbrev shiftsSumToTwentyEight : Prop := tableShifts.length = 16 ∧ tableShifts.sum = 28

/-- Item 7, the halves: after round 16 `C` and `D` are back to their values before round 1 (R151). -/
def halvesReturnAfterSixteenRounds : Prop := ∀ key : Block, halvesAfter key 16 = halvesAfter key 0

/-- R121 whole: items 1 to 7. -/
def tablesConsistent : Prop :=
  (ipFpInverse ∧ fpUndoesIp) ∧ pc1OmitsMultiplesOfEight ∧ pc2SelectsDistinctBits ∧ eRepeatsSixteenBits ∧
  pIsPermutation ∧ sboxRowsArePermutations ∧ (shiftsSumToTwentyEight ∧ halvesReturnAfterSixteenRounds)

end Sys2Proof.Machine
end

