-- ==== Sys2Proof/Machine/Lanes.lean ====
section
/-! DEFINITION. Lanes: a stream command's payload written block by block into a payload sized beforehand, by any
number of lanes in any order (spec/20_memory.md R52, R65 to R67). The meanings of `ENCS` and `DECS` take the index
order, which R66 calls exact; this file is what that rule compares it with. Log 9. -/

namespace Sys2Proof.Machine

/-- The block indices that lane `w` of `lanes` owns of `nb` blocks: from the first number up to, not including, the
second (R65). -/
def laneRange (lanes nb w : Nat) : Nat × Nat :=
  let q := nb / lanes
  (w * q, if w + 1 = lanes then nb else (w + 1) * q)

/-- The indices of a lane in increasing order. -/
def laneIndices (lanes nb w : Nat) : List Nat :=
  List.range' (laneRange lanes nb w).1 ((laneRange lanes nb w).2 - (laneRange lanes nb w).1)

/-- The lanes' indices, lane 0 first. -/
def allLaneIndices (lanes nb : Nat) : List Nat := (List.range lanes).flatMap (laneIndices lanes nb)

/-- One lane's work on block `j`: `MemWrite(8j, 8, bytes(64, ..))` (R210, R211). -/
def writeBlock (blocks : List Block) (K : Schedule) (dir : Direction) (payload : List Byte) (j : Nat) : List Byte :=
  memWrite payload (8 * j) (bytes (feistel (blocks.getD j 0) K dir))

/-- The payload after the blocks have been written in the given order, whichever lane wrote which. -/
def writeBlocks (blocks : List Block) (K : Schedule) (dir : Direction) (order : List Nat) (payload : List Byte) :
    List Byte :=
  order.foldl (writeBlock blocks K dir) payload

end Sys2Proof.Machine
end

