-- ==== Sys2Proof/Machine/Ports.lean ====
section
/-! DEFINITION. What the host can do to the machine between steps (spec/00_scope.md R14, spec/20_memory.md R50,
spec/70_reset_and_hazards.md R270): three inputs, none of them an engine step. Log 10. -/

namespace Sys2Proof.Machine

/-- The host appends bytes at the tail of `CMD` (R14 a, R50). -/
def State.hostSend (sent : List Byte) (s : State) : State := { s with cmd := s.cmd ++ sent }

/-- The host removes up to `n` bytes from the head of `RSP` (R14 b, R50): the bytes it gets and the state left. -/
def State.hostReceive (n : Nat) (s : State) : List Byte × State :=
  (s.rsp.take n, { s with rsp := s.rsp.drop n })

/-- The hardware reset input (R14 c, R270, R271): both channels are emptied, `HALTED` is cleared, `KS` has no value;
the working registers are unspecified. -/
def State.hardwareReset (s : State) : State :=
  { State.reset with work := Working.free s.draws, draws := s.draws + 1 }

end Sys2Proof.Machine
end

