-- ==== Sys2Proof/Safety.lean ====
section
/-! DEFINITION. The terms claims are stated in: how a run stands (spec/70_reset_and_hazards.md R281), what a command
leaves unchanged, the invariant of every reachable state, and a sequence of packets run one after another. -/

namespace Sys2Proof.Machine

/-- A finished run: `CMD` and `RSP` empty, the decoder at a packet boundary, not halted (R281). -/
def State.Finished (s : State) : Prop := s.cmd = [] ∧ s.halted = false ∧ s.rsp = []

/-- A faulted run: halted (R281). -/
def State.Faulted (s : State) : Prop := s.halted = true

/-- A stuck run: the decoder inside a packet whose bytes are missing (R275, R281). -/
def State.Stuck (s : State) : Prop := s.halted = false ∧ decode s.cmd = .incompletePacket

/-- The three sticky bits of `STATUS` are the same in both states (R22). -/
structure SameSticky (s t : State) : Prop where
  eKeylen : t.eKeylen = s.eKeylen
  eNosched : t.eNosched = s.eNosched
  wTrunc : t.wTrunc = s.wTrunc

/-- Every register of R20 to R23 is the same in both states, and nothing was taken from `CMD`. -/
structure SameRegisters (s t : State) : Prop where
  ks : t.ks = s.ks
  sticky : SameSticky s t
  halted : t.halted = s.halted
  cmd : t.cmd = s.cmd

/-- The response of a command: one status byte and then the payload, after everything answered before (R63, R88). -/
def Answers (s t : State) (st : StatusCode) (payload : List Byte) : Prop :=
  t.rsp = s.rsp ++ st.code :: payload

/-- What an error of R244 leaves: one sticky bit set, the status byte alone answered, all else as before. -/
structure Refuses (s t : State) (e : ErrorKind) : Prop where
  ks : t.ks = s.ks
  halted : t.halted = s.halted
  cmd : t.cmd = s.cmd
  wTrunc : t.wTrunc = s.wTrunc
  eKeylen : t.eKeylen = (s.eKeylen || decide (e = .invalidKeyLength))
  eNosched : t.eNosched = (s.eNosched || decide (e = .noSchedule))
  answer : Answers s t e.status []

/-- What holds of every state that reset and the engine's steps lead to: a schedule in `KS` is one that `DERIVE`
derives (R21), and `W_TRUNC` is not set while `KS_VALID` is clear (R231). -/
structure State.Inv (s : State) : Prop where
  derived : ∀ K, s.ks = some K → ∃ key : Block, K = scheduleOf key
  truncated : s.wTrunc = true → s.ksValid = true

/-- The commands that read `KS` (R20, R240). -/
def readsSchedule : Instr → Bool
  | .derive _ => false
  | .rdks => true
  | .rndf _ _ => false
  | .encb _ => true
  | .decb _ => true
  | .encs _ => true
  | .decs _ => true
  | .rst => false
  | .rdst => false

/-- The state a command leaves, where it leaves one. -/
def State.perform (i : Instr) (s : State) : State :=
  match exec i s with
  | .next t => t
  | .fault _ => s
  | .refused _ => s

/-- The state after commands executed one after another, each with the packets after it still on `CMD` (R62). -/
def State.performAll (rest : List Byte) : List Instr → State → State
  | [], s => s
  | i :: is, s => performAll rest is ((s.fetched i (is.flatMap encode ++ rest)).perform i)

/-- The two states differ in the working registers at most (R25). -/
def SameButWorking (s t : State) : Prop := t = { s with work := t.work }

end Sys2Proof.Machine
end

