-- ==== Sys2Proof/Certificates/Slice0/Obligations.lean ====
section
/-! DEFINITION. The statements for the provers. Each docstring names the rule of spec/ that the statement comes
from; what is the model's choice is said there with its log entry. -/

open Sys2Proof Sys2Proof.Machine

/-! ## Packets -/

/-- R81, R82 to R85: the packet of each command, and that every other opcode byte is illegal. -/
def Obligations.PacketOfEachCommand : Prop :=
  (∀ key : List Byte, encode (.derive key) = 0x01 :: BitVec.ofNat 8 key.length :: key) ∧
  encode .rdks = [0x02] ∧
  (∀ (half : Half) (subkey : Subkey), encode (.rndf half subkey) = 0x03 :: (bytes half ++ bytes subkey)) ∧
  (∀ block : Block, encode (.encb block) = 0x04 :: bytes block) ∧
  (∀ block : Block, encode (.decb block) = 0x05 :: bytes block) ∧
  (∀ data : List Byte, encode (.encs data) = 0x06 :: (bytes (BitVec.ofNat 32 data.length) ++ data)) ∧
  (∀ data : List Byte, encode (.decs data) = 0x07 :: (bytes (BitVec.ofNat 32 data.length) ++ data)) ∧
  encode .rst = [0x08] ∧
  encode .rdst = [0x09] ∧
  (∀ (op : Byte) (rest : List Byte),
    decode (op :: rest) = .illegalOpcode op rest ↔ op.toNat = 0 ∨ 0x0A ≤ op.toNat)

/-- Six packets written out from R82 to R85 and R93's examples decode to the commands they stand for, one of them with
a byte left over after it; and `0A`, with a byte after it, is an illegal opcode. -/
def Obligations.DecodingOfTheSpecsExamplePackets : Prop :=
  decode [0x01, 0x08, 0x01, 0x23, 0x45, 0x67, 0x89, 0xAB, 0xCD, 0xEF] =
    .packet (.derive [0x01, 0x23, 0x45, 0x67, 0x89, 0xAB, 0xCD, 0xEF]) [] ∧
  decode [0x02] = .packet .rdks [] ∧
  decode [0x03, 0xF0, 0xAA, 0xF0, 0xAA, 0x1B, 0x02, 0xEF, 0xFC, 0x70, 0x72] =
    .packet (.rndf 0xF0AAF0AA 0x1B02EFFC7072) [] ∧
  decode [0x04, 0x01, 0x23, 0x45, 0x67, 0x89, 0xAB, 0xCD, 0xEF, 0x09] = .packet (.encb 0x0123456789ABCDEF) [0x09] ∧
  decode [0x06, 0x00, 0x00, 0x00, 0x05, 0x48, 0x65, 0x6C, 0x6C, 0x6F] =
    .packet (.encs [0x48, 0x65, 0x6C, 0x6C, 0x6F]) [] ∧
  decode [0x06, 0x00, 0x00, 0x00, 0x00] = .packet (.encs []) [] ∧
  decode [0x0A, 0x09] = .illegalOpcode 0x0A [0x09]

/-- Decode and encode agree: every well-formed command's packet decodes to that command, every operand at every
value, whatever bytes follow (R80 to R87). -/
def Obligations.DecodeReadsEveryEncodedCommand : Prop :=
  ∀ (i : Instr) (rest : List Byte), i.wellFormed = true → decode (encode i ++ rest) = .packet i rest

/-- The other direction: a packet that the decoder accepts is the packet of the command it names, bit for bit. -/
def Obligations.AcceptedPacketIsItsCommandsEncoding : Prop :=
  ∀ (bs : List Byte) (i : Instr) (rest : List Byte),
    decode bs = .packet i rest → bs = encode i ++ rest ∧ i.wellFormed = true

/-- R95: any bytes are, uniquely, zero or more complete legal packets followed by nothing, by an incomplete legal
packet, or by a byte that is an illegal opcode; and the decoder tells the three apart. -/
def Obligations.AnyBytesAreUniquelyPacketsAndATail : Prop :=
  ∀ bs : List Byte, ∃! p : List Instr × List Byte,
    bs = p.1.flatMap encode ++ p.2 ∧ (∀ i ∈ p.1, i.wellFormed = true) ∧
      ((p.2 = [] ∧ decode p.2 = .noPacket) ∨
        (p.2 ≠ [] ∧ decode p.2 = .incompletePacket ∧
          ∃ (i : Instr) (more : List Byte), i.wellFormed = true ∧ more ≠ [] ∧ p.2 ++ more = encode i) ∨
        ∃ (op : Byte) (rest : List Byte), p.2 = op :: rest ∧ (op.toNat = 0 ∨ 0x0A ≤ op.toNat) ∧
          decode p.2 = .illegalOpcode op rest)

/-! ## Steps -/

/-- A step runs the decoded command: with a well-formed command's packet at the head of `CMD`, `step` is `exec` of
that command on the state whose `CMD` has lost that packet; the two decoder registers hold the opcode and 0 (R62,
R87). -/
def Obligations.StepRunsTheDecodedCommand : Prop :=
  ∀ (s : State) (i : Instr) (rest : List Byte),
    s.halted = false → i.wellFormed = true → s.cmd = encode i ++ rest →
      step s = exec i { s with cmd := rest, work := { s.work with opc := i.opcode, cnt := 0 } }

/-- R91, R245: an illegal opcode byte (`00`, `0A` to `FF`) is consumed alone, `FF` is answered after what was answered
before, the engine halts with its registers kept; from then on it has no step, whatever the host appends to `CMD` or
removes from `RSP`, and the hardware reset ends the halt. -/
def Obligations.IllegalOpcodeHaltsTheEngine : Prop :=
  ∀ (s : State) (op : Byte) (rest : List Byte),
    s.halted = false → s.cmd = op :: rest → (op.toNat = 0 ∨ 0x0A ≤ op.toNat) →
      ∃ t, step s = .next t ∧ t.halted = true ∧ t.cmd = rest ∧ t.rsp = s.rsp ++ [0xFF] ∧ t.ks = s.ks ∧
        t.ksValid = s.ksValid ∧ t.status = s.status ∧
        (∀ (sent : List Byte) (n : Nat) (u : State), step ((t.hostSend sent).hostReceive n).2 ≠ .next u) ∧
        t.hardwareReset.halted = false

/-- Where the engine has no step: nothing on `CMD` (R257), or the beginning of a packet only (R275). The two faults are
the model's form of having no step (logs 5, 6). -/
def Obligations.NothingOrPartOfAPacketGivesNoStep : Prop :=
  (∀ s : State, s.halted = false → s.cmd = [] → step s = .fault .noCommand) ∧
  (∀ (s : State) (i : Instr) (more : List Byte),
    s.halted = false → i.wellFormed = true → s.cmd ≠ [] → more ≠ [] → s.cmd ++ more = encode i →
      step s = .fault .incompletePacket)

/-- R62, R63: a sequence of packets is run one command at a time in the order of the packets, each on the state the one
before it left, and what follows on `CMD` stays there. -/
def Obligations.PacketsRunInOrderOneAtATime : Prop :=
  ∀ (s : State) (is : List Instr) (rest : List Byte),
    s.halted = false → (∀ i ∈ is, i.wellFormed = true) → s.cmd = is.flatMap encode ++ rest →
      ∃ t, Host.Core.run core is.length s = .next t ∧ t = State.performAll rest is s ∧ t.cmd = rest ∧
        t.halted = false ∧ s.rsp <+: t.rsp

/-- R62, R276: what the host appends to `CMD` behind the packet being executed changes nothing of that step. That the
next states agree in the working registers too is the model's choice: both draw the same free values from one counter
(log 4). -/
def Obligations.LaterBytesDoNotChangeAStep : Prop :=
  ∀ (s t : State) (sent : List Byte), step s = .next t → step (s.hostSend sent) = .next (t.hostSend sent)

/-- R50, R59, R63: a step takes at least one byte from the head of `CMD`, never to return, and appends at least one
to `RSP`; R23: it halts the engine only on an illegal opcode. -/
def Obligations.StepConsumesCommandsAndOnlyAppendsResponses : Prop :=
  ∀ s t : State, step s = .next t →
    (∃ taken : List Byte, taken ≠ [] ∧ s.cmd = taken ++ t.cmd) ∧
    (∃ answered : List Byte, answered ≠ [] ∧ t.rsp = s.rsp ++ answered) ∧
    (t.halted = true → ∃ (op : Byte) (rest : List Byte), s.cmd = op :: rest ∧ (op.toNat = 0 ∨ 0x0A ≤ op.toNat))

/-! ## Commands -/

/-- R149: `DERIVE` with eight key bytes fills all sixteen registers with the schedule of the key and sets `KS_VALID`
(bit 0 of `STATUS`); with any other number of bytes it answers `InvalidKeyLength`, sets `E_KEYLEN`, and changes nothing
else. -/
def Obligations.DeriveStoresTheScheduleOrRejectsTheLength : Prop :=
  (∀ key : List Byte, encode (.derive key) = 0x01 :: BitVec.ofNat 8 key.length :: key) ∧
  (∀ (key : List Byte) (s : State), key.length = 8 →
    ∃ t, exec (.derive key) s = .next t ∧ t.ks = some (scheduleOf (be 64 key)) ∧ t.ksValid = true ∧
      t.status.getLsbD 0 = true ∧ SameSticky s t ∧ t.halted = s.halted ∧ t.cmd = s.cmd ∧ Answers s t .ok []) ∧
  (∀ (key : List Byte) (s : State), key.length ≠ 8 →
    ∃ t, exec (.derive key) s = .next t ∧ Refuses s t .invalidKeyLength)

/-- R150: `RDKS` answers the sixteen subkeys in round order, six bytes each, and changes no register; without a
schedule it answers `NoSchedule`. -/
def Obligations.RdksAnswersTheSubkeysInOrder : Prop :=
  encode .rdks = [0x02] ∧
  (∀ (s : State) (K : Schedule), s.ks = some K →
    ∃ t payload, exec .rdks s = .next t ∧ Answers s t .ok payload ∧ payload.length = 96 ∧
      (∀ i, 1 ≤ i → i ≤ 16 → memRead payload (6 * (i - 1)) 6 = bytes (scheduleKey K i)) ∧ SameRegisters s t) ∧
  (∀ s : State, s.ks = none → ∃ t, exec .rdks s = .next t ∧ Refuses s t .noSchedule)

/-- R169: `RNDF` answers the round function of its two operands, with a schedule or without one, and changes no
register. -/
def Obligations.RndfAnswersTheRoundFunction : Prop :=
  ∀ (half : Half) (subkey : Subkey) (s : State),
    encode (.rndf half subkey) = 0x03 :: (bytes half ++ bytes subkey) ∧
      ∃ t, exec (.rndf half subkey) s = .next t ∧ Answers s t .ok (bytes (roundF half subkey)) ∧ SameRegisters s t

/-- R189: `ENCB`. -/
def Obligations.EncbAnswersTheEncryptedBlock : Prop :=
  (∀ block : Block, encode (.encb block) = 0x04 :: bytes block) ∧
  (∀ (block : Block) (s : State) (K : Schedule), s.ks = some K →
    ∃ t, exec (.encb block) s = .next t ∧ Answers s t .ok (bytes (encryptBlock block K)) ∧ SameRegisters s t) ∧
  (∀ (block : Block) (s : State), s.ks = none →
    ∃ t, exec (.encb block) s = .next t ∧ Refuses s t .noSchedule)

/-- R190: `DECB`. -/
def Obligations.DecbAnswersTheDecryptedBlock : Prop :=
  (∀ block : Block, encode (.decb block) = 0x05 :: bytes block) ∧
  (∀ (block : Block) (s : State) (K : Schedule), s.ks = some K →
    ∃ t, exec (.decb block) s = .next t ∧ Answers s t .ok (bytes (decryptBlock block K)) ∧ SameRegisters s t) ∧
  (∀ (block : Block) (s : State), s.ks = none →
    ∃ t, exec (.decb block) s = .next t ∧ Refuses s t .noSchedule)

/-- R210: `ENCS`: status `OK` for every length, the payload the encrypted stream, no register changed; or
`NoSchedule`. -/
def Obligations.EncsAnswersTheEncryptedStream : Prop :=
  (∀ data : List Byte, encode (.encs data) = 0x06 :: (bytes (BitVec.ofNat 32 data.length) ++ data)) ∧
  (∀ (data : List Byte) (s : State) (K : Schedule), s.ks = some K →
    ∃ t, exec (.encs data) s = .next t ∧ Answers s t .ok (encryptStream data K) ∧
      (encryptStream data K).length = 8 * ((data.length + 7) / 8) ∧ SameRegisters s t) ∧
  (∀ (data : List Byte) (s : State), s.ks = none →
    ∃ t, exec (.encs data) s = .next t ∧ Refuses s t .noSchedule)

/-- R211: `DECS`: the full blocks decrypted; `TruncatedBlock` and `W_TRUNC` when bytes were dropped, `OK` otherwise; or
`NoSchedule` alone, whatever the length. -/
def Obligations.DecsAnswersTheDecryptedFullBlocks : Prop :=
  (∀ data : List Byte, encode (.decs data) = 0x07 :: (bytes (BitVec.ofNat 32 data.length) ++ data)) ∧
  (∀ (data : List Byte) (s : State) (K : Schedule), s.ks = some K → data.length % 8 = 0 →
    ∃ t, exec (.decs data) s = .next t ∧ Answers s t .ok (decryptStream data K).1 ∧
      (decryptStream data K).1.length = 8 * (data.length / 8) ∧ SameRegisters s t) ∧
  (∀ (data : List Byte) (s : State) (K : Schedule), s.ks = some K → data.length % 8 ≠ 0 →
    ∃ t, exec (.decs data) s = .next t ∧ Answers s t .truncatedBlock (decryptStream data K).1 ∧
      (decryptStream data K).1.length = 8 * (data.length / 8) ∧ t.wTrunc = true ∧ t.ks = s.ks ∧
      t.eKeylen = s.eKeylen ∧ t.eNosched = s.eNosched ∧ t.halted = s.halted ∧ t.cmd = s.cmd) ∧
  (∀ (data : List Byte) (s : State), s.ks = none →
    ∃ t, exec (.decs data) s = .next t ∧ Refuses s t .noSchedule)

/-- R230: `RST` clears `KS_VALID` and all of `STATUS`, takes `KS` its value, and leaves the channels alone but for its
own status byte. -/
def Obligations.RstClearsTheRegistersAndKeepsTheChannels : Prop :=
  encode .rst = [0x08] ∧
  ∀ s : State, ∃ t, exec .rst s = .next t ∧ t.ks = none ∧ t.ksValid = false ∧ t.status = 0x00 ∧
    t.halted = s.halted ∧ t.cmd = s.cmd ∧ Answers s t .ok []

/-- R231: `RDST` answers the `STATUS` byte, whose bits 7:4 are 0, and changes nothing: no sticky bit is cleared. -/
def Obligations.RdstAnswersTheStatusRegister : Prop :=
  encode .rdst = [0x09] ∧
  ∀ s : State, ∃ t, exec .rdst s = .next t ∧ Answers s t .ok [s.status] ∧ t.status = s.status ∧ SameRegisters s t

/-- R22: the bits of `STATUS`. -/
def Obligations.StatusBitsStandWhereTheSpecPutsThem : Prop :=
  ∀ s : State, s.status.getLsbD 0 = s.ksValid ∧ s.status.getLsbD 1 = s.eKeylen ∧ s.status.getLsbD 2 = s.eNosched ∧
    s.status.getLsbD 3 = s.wTrunc ∧ s.status.extractLsb' 4 4 = 0

/-! ## Responses and errors -/

/-- R88: every command finishes (R280) with exactly one response: one status byte, then a payload whose length the
command and the status fix. -/
def Obligations.EveryCommandAnswersOneResponse : Prop :=
  ∀ (i : Instr) (s : State), ∃ t st payload, exec i s = .next t ∧ Answers s t st payload ∧ st ≠ .illegalCommand ∧
    payload.length = (if st = .ok ∨ st = .truncatedBlock then i.payloadLength else 0)

/-- R243: each of the five commands that read `KS` refuses while `KS_VALID = 0`, before the first successful `DERIVE`:
the packet consumed whole, status `02`, no payload, `E_NOSCHED` set, nothing else changed. -/
def Obligations.ReadersOfTheScheduleRefuseWithoutOne : Prop :=
  (∀ i : Instr, readsSchedule i = true ↔
    (i = .rdks ∨ (∃ b, i = .encb b) ∨ (∃ b, i = .decb b) ∨ (∃ d, i = .encs d) ∨ ∃ d, i = .decs d)) ∧
  (∀ (i : Instr) (s : State), readsSchedule i = true → s.ksValid = false →
    ∃ t, exec i s = .next t ∧ Refuses s t .noSchedule) ∧
  (∀ (i : Instr) (s : State) (rest : List Byte), readsSchedule i = true → s.ksValid = false → s.halted = false →
    i.wellFormed = true → s.cmd = encode i ++ rest →
      ∃ t, step s = .next t ∧ Refuses { s with cmd := rest } t .noSchedule)

/-- R249: the fixed order of the checks: the opcode byte alone; `n` alone, whatever `KS_VALID`; `KS_VALID` alone,
whatever `len`; then `len mod 8`. -/
def Obligations.ErrorsHaveTheFixedPriority : Prop :=
  (∀ (op : Byte) (rest : List Byte), (op.toNat = 0 ∨ 0x0A ≤ op.toNat) → decode (op :: rest) = .illegalOpcode op rest) ∧
  (∀ (key : List Byte) (s : State), key.length ≠ 8 →
    ∃ t, exec (.derive key) s = .next t ∧ Refuses s t .invalidKeyLength) ∧
  (∀ (key : List Byte) (s : State), ∃ t st, exec (.derive key) s = .next t ∧ Answers s t st [] ∧ st ≠ .noSchedule) ∧
  (∀ (i : Instr) (s : State), readsSchedule i = true → s.ksValid = false →
    ∃ t, exec i s = .next t ∧ Answers s t .noSchedule [] ∧ t.wTrunc = s.wTrunc) ∧
  (∀ (data : List Byte) (s : State), s.ksValid = true → data.length % 8 ≠ 0 →
    ∃ t payload, exec (.decs data) s = .next t ∧ Answers s t .truncatedBlock payload)

/-- R22: a sticky bit, once set, stays set until a reset: no command but `RST` clears one. -/
def Obligations.OnlyRstClearsASetStickyBit : Prop :=
  ∀ (i : Instr) (s : State), i ≠ .rst → ∃ t, exec i s = .next t ∧
    (s.eKeylen = true → t.eKeylen = true) ∧ (s.eNosched = true → t.eNosched = true) ∧
    (s.wTrunc = true → t.wTrunc = true)

/-- R20, R21: `KS` is written by a successful `DERIVE`, all of it at once, and loses its value by `RST`; every other
command leaves it and `KS_VALID` as they were. -/
def Obligations.OnlyDeriveAndRstChangeTheSchedule : Prop :=
  ∀ (i : Instr) (s : State), ∃ t, exec i s = .next t ∧
    ((t.ks = s.ks ∧ t.ksValid = s.ksValid) ∨
      (∃ key, i = .derive key ∧ key.length = 8 ∧ t.ks = some (scheduleOf (be 64 key)) ∧ t.ksValid = true) ∨
      (i = .rst ∧ t.ks = none ∧ t.ksValid = false))

/-- R25: no command's result depends on what a working register held before: two states that differ there only have the
same step. What the registers hold after a step is a free value of the draw counter (log 4), which the two states
share. -/
def Obligations.WorkingRegistersCarryNothingBetweenCommands : Prop :=
  ∀ s t : State, SameButWorking s t → step t = step s

/-! ## Reset and the invariant -/

/-- R30, R270, R271: the registers after the hardware reset, whatever the state before, and after `RST`. -/
def Obligations.ResetLeavesNoScheduleAndClearStatus : Prop :=
  (State.reset.ks = none ∧ State.reset.ksValid = false ∧ State.reset.status = 0x00 ∧ State.reset.halted = false ∧
    State.reset.cmd = [] ∧ State.reset.rsp = []) ∧
  (∀ s : State, s.hardwareReset.ks = none ∧ s.hardwareReset.ksValid = false ∧ s.hardwareReset.status = 0x00 ∧
    s.hardwareReset.halted = false ∧ s.hardwareReset.cmd = [] ∧ s.hardwareReset.rsp = []) ∧
  (∀ s : State, ∃ t, exec .rst s = .next t ∧ t.ks = none ∧ t.ksValid = false ∧ t.status = 0x00 ∧
    t.halted = s.halted ∧ t.cmd = s.cmd ∧ t.rsp = s.rsp ++ [0x00])

/-- The invariant holds right after reset. -/
def Obligations.InvariantHoldsAtReset : Prop := State.reset.Inv

/-- R21, R231: every step keeps the invariant: `KS`, where it has a value, holds a schedule that `DERIVE` derives, and
`W_TRUNC` is never set while `KS_VALID` is clear. -/
def Obligations.EveryStepKeepsTheInvariant : Prop :=
  ∀ s t : State, s.Inv → step s = .next t → t.Inv

/-- The host's three inputs keep the invariant too (R14). -/
def Obligations.HostInputsKeepTheInvariant : Prop :=
  ∀ (s : State) (sent : List Byte) (n : Nat), s.Inv →
    (s.hostSend sent).Inv ∧ (s.hostReceive n).2.Inv ∧ s.hardwareReset.Inv

/-- R231: in a state that the invariant allows, the payload of `RDST` is one of `00` to `0F`, and never `08`, `0A`,
`0C` or `0E`. -/
def Obligations.RdstNeverAnswersTruncationWithoutASchedule : Prop :=
  ∀ s : State, s.Inv → ∃ t v, exec .rdst s = .next t ∧ Answers s t .ok [v] ∧ v.toNat ≤ 0x0F ∧
    v ≠ 0x08 ∧ v ≠ 0x0A ∧ v ≠ 0x0C ∧ v ≠ 0x0E

/-! ## Byte order, tables and the permutation -/

/-- R53, R54: bit `8j + i` of a field, counted from the left, is bit `i` from the left of its byte `j`; and the byte
order undoes itself, for the three widths. -/
def Obligations.FirstByteIsMostSignificant : Prop :=
  (∀ (s : List Byte) (j i : Nat), j < s.length → 1 ≤ i → i ≤ 8 →
    bitM (be (8 * s.length) s) (8 * j + i) = bitM (s.getD j 0) i) ∧
  (∀ v : BitVec 64, be 64 (bytes v) = v) ∧ (∀ v : BitVec 48, be 48 (bytes v) = v) ∧
  (∀ v : BitVec 32, be 32 (bytes v) = v) ∧
  (∀ s : List Byte, s.length = 8 → bytes (be 64 s) = s) ∧ (∀ s : List Byte, s.length = 6 → bytes (be 48 s) = s) ∧
  (∀ s : List Byte, s.length = 4 → bytes (be 32 s) = s)

/-- R110: bit `j` of the result, counted from the left, is bit `T[j]` of the input. -/
def Obligations.PermutePicksTheTablesBits : Prop :=
  ∀ (n m : Nat) (T : List Nat) (v : BitVec n) (j : Nat), T.length = m → (∀ x ∈ T, 1 ≤ x ∧ x ≤ n) → 1 ≤ j → j ≤ m →
    bitM (permute (m := m) T v) j = bitM v (T.getD (j - 1) 0)

/-- R121, items 1 to 7: the consistency checks of the tables, those over every block and every key included. The
entries are the spec's, from general knowledge (log 11). -/
def Obligations.TablesPassTheSpecsConsistencyChecks : Prop := tablesConsistent

/-- R121 item 1: the final permutation undoes the initial one, on every block, and the other way round. -/
def Obligations.FinalPermutationUndoesInitialPermutation : Prop :=
  ∀ v : Block, permute (m := 64) tableFP (permute (m := 64) tableIP v) = v ∧
    permute (m := 64) tableIP (permute (m := 64) tableFP v) = v

/-- R118: the outer two bits select the row, the inner four the column. -/
def Obligations.SboxLookupTakesOuterRowAndInnerColumn : Prop :=
  ∀ (i : Nat) (b : BitVec 6), i < 8 →
    sbox i b = BitVec.ofNat 4 (sboxEntry i (2 * (b.getLsbD 5).toNat + (b.getLsbD 0).toNat) (b.extractLsb' 1 4).toNat)

/-- R119: the rotation amounts: 1 in rounds 1, 2, 9, 16 and 2 in all others; their sum is 28. -/
def Obligations.RotationAmountOfEachRound : Prop :=
  (∀ i, 1 ≤ i → i ≤ 16 → shiftAmount i = if i = 1 ∨ i = 2 ∨ i = 9 ∨ i = 16 then 1 else 2) ∧
    ((List.range' 1 16).map shiftAmount).sum = 28

/-! ## Key schedule -/

/-- R142 to R144: the halves start as the two halves of the permuted key, accumulate the rotations, each within its own
28 bits, and `K[i]` is the compression of the halves after round `i`. -/
def Obligations.SubkeysComeFromAccumulatedRotations : Prop :=
  ∀ key : Block, ∃ (c d : Nat → BitVec 28),
    c 0 ++ d 0 = permute (m := 56) tablePC1 key ∧
    ∀ i, 1 ≤ i → i ≤ 16 →
      c i = (c (i - 1)).rotateLeft (shiftAmount i) ∧ d i = (d (i - 1)).rotateLeft (shiftAmount i) ∧
      scheduleKey (scheduleOf key) i = permute (m := 48) tablePC2 (c i ++ d i)

/-- R140, R146: `deriveSchedule` accepts eight bytes, and every other length is `InvalidKeyLength`. -/
def Obligations.DeriveScheduleAcceptsEightBytesOnly : Prop :=
  ∀ key : List Byte,
    (key.length = 8 → deriveSchedule key = .ok (scheduleOf (be 64 key))) ∧
    (key.length ≠ 8 → deriveSchedule key = .error .invalidKeyLength)

/-- R147: two keys have the same schedule exactly when they agree on the 56 bits that are not the least significant of
their byte. -/
def Obligations.SchedulesAgreeExactlyOnTheFiftySixBits : Prop :=
  ∀ k k' : Block, scheduleOf k = scheduleOf k' ↔ ∀ j, 1 ≤ j → j ≤ 64 → j % 8 ≠ 0 → bitM k j = bitM k' j

/-- R151: the total rotation before each subkey, the halves back at their start after round 16, and the schedules of the
all-zero and the all-ones key. -/
def Obligations.RotationsReturnTheHalvesAfterSixteenRounds : Prop :=
  (∀ key : Block, halvesAfter key 16 = halvesAfter key 0 ∧
    scheduleKey (scheduleOf key) 16 = compressHalves (initialHalves key)) ∧
  (∀ (key : Block) (i : Nat), 1 ≤ i → i ≤ 16 →
    scheduleKey (scheduleOf key) i = compressHalves
      { c := (initialHalves key).c.rotateLeft ([1, 2, 4, 6, 8, 10, 12, 14, 15, 17, 19, 21, 23, 25, 27, 28].getD (i - 1) 0),
        d := (initialHalves key).d.rotateLeft ([1, 2, 4, 6, 8, 10, 12, 14, 15, 17, 19, 21, 23, 25, 27, 28].getD (i - 1) 0) }) ∧
  (∀ i, 1 ≤ i → i ≤ 16 → scheduleKey (scheduleOf 0x0000000000000000) i = 0x000000000000 ∧
    scheduleKey (scheduleOf 0xFFFFFFFFFFFFFFFF) i = 0xFFFFFFFFFFFF)

/-! ## Round function and block cipher -/

/-- R161 to R166: each nibble of the substituted value is its own group's S-box output, group 0 leftmost, and the round
function is expansion, key mixing, substitution and permutation. -/
def Obligations.RoundFunctionSubstitutesGroupByGroup : Prop :=
  ∀ (half : Half) (subkey : Subkey), ∃ z : Half,
    roundF half subkey = permute (m := 32) tableP z ∧
    ∀ i, i < 8 → z.extractLsb' (28 - 4 * i) 4 =
      sbox i ((permute (m := 48) tableE half ^^^ subkey).extractLsb' (42 - 6 * i) 6)

/-- R168: complementing both operands leaves the round function's result unchanged. -/
def Obligations.RoundFunctionIgnoresComplementingBothOperands : Prop :=
  ∀ (half : Half) (subkey : Subkey), roundF (half ^^^ 0xFFFFFFFF) (subkey ^^^ 0xFFFFFFFFFFFF) = roundF half subkey

/-- R181 to R186: both directions are sixteen Feistel rounds between the initial permutation and the swap with the final
permutation, encryption with `K[1..16]`, decryption with `K[16..1]`. -/
def Obligations.BlockCipherIsSixteenFeistelRounds : Prop :=
  ∀ (block : Block) (K : Schedule) (dir : Direction), ∃ (l r : Nat → Half),
    l 0 ++ r 0 = permute (m := 64) tableIP block ∧
    (∀ i, 1 ≤ i → i ≤ 16 → l i = r (i - 1) ∧
      r i = l (i - 1) ^^^ roundF (r (i - 1)) (scheduleKey K (if dir = .enc then i else 17 - i))) ∧
    (if dir = .enc then encryptBlock block K else decryptBlock block K) = permute (m := 64) tableFP (r 16 ++ l 16)

/-- R188: for every schedule, derived from a key or not, decryption undoes encryption and the other way round, so each
is a bijection of the blocks. -/
def Obligations.DecryptionUndoesEncryption : Prop :=
  ∀ K : Schedule, (∀ block : Block, decryptBlock (encryptBlock block K) K = block ∧
      encryptBlock (decryptBlock block K) K = block) ∧
    (Function.Bijective fun block => encryptBlock block K) ∧ Function.Bijective fun block => decryptBlock block K

/-- R190: when all sixteen subkeys are equal, encryption and decryption are the same function. -/
def Obligations.EqualSubkeysMakeBothDirectionsOne : Prop :=
  ∀ (K : Schedule), (∀ i j, 1 ≤ i → i ≤ 16 → 1 ≤ j → j ≤ 16 → scheduleKey K i = scheduleKey K j) →
    ∀ block : Block, encryptBlock block K = decryptBlock block K

/-- R190 on the machine: `DECB` of what `ENCB` answered gives the block back, under the same `KS`. -/
def Obligations.DecbOfTheEncbAnswerGivesTheBlockBack : Prop :=
  ∀ (block : Block) (s : State) (K : Schedule), s.ks = some K →
    ∃ t u, exec (.encb block) s = .next t ∧
      exec (.decb (be 64 (memRead t.rsp (s.rsp.length + 1) 8))) t = .next u ∧ Answers t u .ok (bytes block)

/-! ## Streams -/

/-- R206: the lengths of both streams: multiples of 8, and at most 7 more than the input's. -/
def Obligations.StreamLengths : Prop :=
  ∀ (s : List Byte) (K : Schedule),
    (encryptStream s K).length = 8 * ((s.length + 7) / 8) ∧
    (encryptStream s K).length = (if s.length % 8 = 0 then s.length else s.length + 8 - s.length % 8) ∧
    (decryptStream s K).1.length = 8 * (s.length / 8) ∧
    (decryptStream s K).1.length = s.length - s.length % 8 ∧
    (encryptStream s K).length % 8 = 0 ∧ (decryptStream s K).1.length % 8 = 0 ∧
    (encryptStream s K).length ≤ s.length + 7 ∧ (decryptStream s K).1.length ≤ s.length + 7

/-- R64, R57: block `j` of a stream's payload is a function of group `j`, `KS` and the direction only: the group
zero-extended if it is short to encrypt, the group itself to decrypt. -/
def Obligations.EachOutputBlockDependsOnItsOwnGroup : Prop :=
  ∀ (s : List Byte) (K : Schedule),
    (∀ j, j < (s.length + 7) / 8 → memRead (encryptStream s K) (8 * j) 8 =
      bytes (encryptBlock (be 64 (memRead s (8 * j) 8 ++ zeros (8 - (s.length - 8 * j)))) K)) ∧
    (∀ j, j < s.length / 8 → memRead (decryptStream s K).1 (8 * j) 8 =
      bytes (decryptBlock (be 64 (memRead s (8 * j) 8)) K))

/-- R208: the stream round trip, exactly: the stream comes back with its zero-padded tail and no truncation. -/
def Obligations.DecryptingAnEncryptedStreamGivesThePaddedStream : Prop :=
  ∀ (s : List Byte) (K : Schedule),
    decryptStream (encryptStream s K) K = (s ++ zeros ((8 - s.length % 8) % 8), false)

/-- R207: zero bytes appended within the last group change nothing of the ciphertext, so the padding cannot be
reversed. -/
def Obligations.PaddingZerosCannotBeToldApart : Prop :=
  ∀ (s : List Byte) (K : Schedule) (k : Nat), s.length % 8 ≠ 0 → k ≤ 8 - s.length % 8 →
    encryptStream s K = encryptStream (s ++ zeros k) K

/-- R209: streams cut at a group boundary are processed piece by piece: no block depends on its place. -/
def Obligations.StreamsSplitAtGroupBoundaries : Prop :=
  ∀ (s u : List Byte) (K : Schedule), s.length % 8 = 0 →
    encryptStream (s ++ u) K = encryptStream s K ++ encryptStream u K ∧
    decryptStream (s ++ u) K = ((decryptStream s K).1 ++ (decryptStream u K).1, (decryptStream u K).2)

/-- R189, R210, R211: a stream command with eight bytes gives the result of the block command of those bytes, on every
state. That the next states agree in the working registers too is the model's choice: both draw the same free values
from one counter (log 4). -/
def Obligations.EightByteStreamsAreBlockCommands : Prop :=
  ∀ (data : List Byte) (s : State), data.length = 8 →
    exec (.encs data) s = exec (.encb (be 64 data)) s ∧ exec (.decs data) s = exec (.decb (be 64 data)) s

/-! ## Lanes -/

/-- R65: for every number of lanes, every block index is owned by exactly one lane. -/
def Obligations.EveryBlockIsOwnedByExactlyOneLane : Prop :=
  ∀ (lanes nb j : Nat), 1 ≤ lanes → j < nb →
    ∃! w, w < lanes ∧ (laneRange lanes nb w).1 ≤ j ∧ j < (laneRange lanes nb w).2

/-- R66, R67, R213: for every number of lanes and every order in which their blocks are written into the payload, the
payload is the one that `ENCS` and `DECS` answer. -/
def Obligations.PayloadIsTheSameForAllLanesAndOrders : Prop :=
  ∀ (s : List Byte) (K : Schedule) (lanes : Nat), 1 ≤ lanes →
    (∀ (order : List Nat) (out : List Byte), order.Perm (allLaneIndices lanes (chunk s).length) →
      out.length = 8 * (chunk s).length → writeBlocks (chunk s) K .enc order out = encryptStream s K) ∧
    (∀ (order : List Nat) (out : List Byte), order.Perm (allLaneIndices lanes (deserialise s).1.length) →
      out.length = 8 * (deserialise s).1.length →
        writeBlocks (deserialise s).1 K .dec order out = (decryptStream s K).1)
end

