-- ==== Sys2Proof/Laws/Bytes.lean ====
section
/-! SUPPORT. Bytes and bit vectors: lengths, the two byte-order functions undo each other, reading and writing of
operands and payloads. -/

namespace Sys2Proof

@[simp] theorem bytes_length {n : Nat} (v : BitVec n) : (bytes v).length = n / 8 := by simp [bytes]

@[simp] theorem zeros_length (k : Nat) : (zeros k).length = k := by simp [zeros]

@[simp] theorem zeros_zero : zeros 0 = [] := rfl

theorem zeros_add (a b : Nat) : zeros (a + b) = zeros a ++ zeros b := by simp [zeros]

theorem memRead_length (s : List Byte) (a n : Nat) (h : a + n ≤ s.length) : (memRead s a n).length = n := by
  simp [memRead]; omega

theorem memRead_append_left (s u : List Byte) (a n : Nat) (h : a + n ≤ s.length) :
    memRead (s ++ u) a n = memRead s a n := by
  rw [memRead, memRead, List.drop_append_of_le_length (by omega), List.take_append_of_le_length (by simp; omega)]

theorem memRead_append_right (s u : List Byte) (a n : Nat) : memRead (s ++ u) (s.length + a) n = memRead u a n := by
  simp [memRead, List.drop_append, List.drop_eq_nil_of_le (Nat.le_add_right s.length a)]

theorem memRead_all (s : List Byte) (n : Nat) (h : s.length = n) : memRead s 0 n = s := by
  simp [memRead, ← h]

theorem natOfBytes_concat (s : List Byte) (b : Byte) : natOfBytes (s ++ [b]) = 256 * natOfBytes s + b.toNat := by
  simp [natOfBytes]

/-- Bit `p` from the right of a byte string read as a number is bit `p % 8` of the byte `p / 8` from the end. -/
theorem testBit_natOfBytes (s : List Byte) (p : Nat) :
    (natOfBytes s).testBit p = (s.reverse.getD (p / 8) 0).getLsbD (p % 8) := by
  induction s using List.reverseRecOn generalizing p with
  | nil => simp [natOfBytes]
  | append_singleton s b ih =>
    have hb : b.toNat < 2 ^ 8 := b.isLt
    rw [natOfBytes_concat, show 256 = 2 ^ 8 from rfl, Nat.testBit_two_pow_mul_add _ hb]
    by_cases hp : p < 8
    · simp [hp, Nat.div_eq_of_lt hp, Nat.mod_eq_of_lt hp, BitVec.getLsbD]
    · obtain ⟨q, rfl⟩ : ∃ q, p = q + 8 := ⟨p - 8, by omega⟩
      simp [ih]

theorem be_getLsbD (n : Nat) (s : List Byte) (p : Nat) :
    (be n s).getLsbD p = (decide (p < n) && (s.reverse.getD (p / 8) 0).getLsbD (p % 8)) := by
  rw [be, BitVec.getLsbD_ofNat, testBit_natOfBytes]

theorem bytes_getElem {n : Nat} (v : BitVec n) (j : Nat) (h : j < (bytes v).length) :
    (bytes v)[j] = v.extractLsb' (n - 8 * (j + 1)) 8 := by simp [bytes]

/-- `be` undoes `bytes` (R10). -/
theorem be_bytes {n : Nat} (v : BitVec n) (h : n % 8 = 0) : be n (bytes v) = v := by
  apply BitVec.eq_of_getLsbD_eq
  intro p hp
  have hj : n / 8 - 1 - p / 8 < (bytes v).length := by rw [bytes_length]; omega
  have hq : p / 8 < (bytes v).reverse.length := by simp; omega
  rw [be_getLsbD, List.getD_eq_getElem _ _ hq, List.getElem_reverse, bytes_getElem]
  simp only [hp, decide_true, Bool.true_and, BitVec.getLsbD_extractLsb', bytes_length]
  have h8 : p % 8 < 8 := Nat.mod_lt _ (by omega)
  have : n - 8 * (n / 8 - 1 - p / 8 + 1) + p % 8 = p := by omega
  simp [h8, this]

/-- `bytes` undoes `be` (R10). -/
theorem bytes_be (n : Nat) (s : List Byte) (h : n = 8 * s.length) : bytes (be n s) = s := by
  subst h
  apply List.ext_getElem (by simp)
  intro j h1 h2
  rw [bytes_getElem]
  apply BitVec.eq_of_getLsbD_eq
  intro p hp
  rw [BitVec.getLsbD_extractLsb', be_getLsbD]
  have e1 : (8 * s.length - 8 * (j + 1) + p) / 8 = s.length - 1 - j := by omega
  have e2 : (8 * s.length - 8 * (j + 1) + p) % 8 = p := by omega
  have e3 : 8 * s.length - 8 * (j + 1) + p < 8 * s.length := by omega
  rw [e1, e2]
  have hq : s.length - 1 - j < s.reverse.length := by simp; omega
  rw [List.getD_eq_getElem _ _ hq, List.getElem_reverse]
  have : s.length - 1 - (s.length - 1 - j) = j := by omega
  simp [hp, e3, this]

/-- A fixed-width field at the front of an operand reads back as itself. -/
theorem be_memRead_bytes {n : Nat} (v : BitVec n) (u : List Byte) (h : n % 8 = 0) :
    be n (memRead (bytes v ++ u) 0 (n / 8)) = v := by
  rw [memRead_append_left _ _ _ _ (by simp), memRead_all _ _ (by simp), be_bytes v h]

/-- A length field of 32 bits reads back as the length it announces (R85, R86). -/
theorem be_length_field (k : Nat) (h : k < 2 ^ 32) : (be 32 (bytes (BitVec.ofNat 32 k))).toNat = k := by
  rw [be_bytes _ rfl, BitVec.toNat_ofNat, Nat.mod_eq_of_lt h]

theorem memWrite_length (out : List Byte) (a : Nat) (v : List Byte) (h : a + v.length ≤ out.length) :
    (memWrite out a v).length = out.length := by
  simp [memWrite]; omega

/-- Reading back what was written. -/
theorem memRead_memWrite_same (out : List Byte) (a : Nat) (v : List Byte) (h : a + v.length ≤ out.length) :
    memRead (memWrite out a v) a v.length = v := by
  have ha : a ≤ out.length := by omega
  rw [memRead, memWrite, List.append_assoc, List.drop_append_of_le_length (by simp [ha])]
  simp

/-- A write leaves every byte outside it as it was. -/
theorem memWrite_getElem?_outside (out : List Byte) (a : Nat) (v : List Byte) (p : Nat)
    (h : a + v.length ≤ out.length) (hp : p < a ∨ a + v.length ≤ p) : (memWrite out a v)[p]? = out[p]? := by
  have ha : a ≤ out.length := by omega
  rw [memWrite]
  rcases hp with hp | hp
  · rw [List.append_assoc, List.getElem?_append_left (by simp; omega), List.getElem?_take_of_lt hp]
  · rw [List.getElem?_append_right (by simp; omega), List.getElem?_drop]
    congr 1
    simp; omega

/-- A read apart from a write gives what it gave before. -/
theorem memRead_memWrite_apart (out : List Byte) (a : Nat) (v : List Byte) (b n : Nat)
    (h : a + v.length ≤ out.length) (hb : b + n ≤ a ∨ a + v.length ≤ b) :
    memRead (memWrite out a v) b n = memRead out b n := by
  apply List.ext_getElem?
  intro k
  simp only [memRead, List.getElem?_take, List.getElem?_drop]
  split
  · exact memWrite_getElem?_outside _ _ _ _ h (by omega)
  · rfl

end Sys2Proof
end

