-- ==== Sys2Proof/Laws/Cipher.lean ====
section
/-! SUPPORT. The permutation primitive bit by bit, the working-register loops and the pure functions they compute,
lengths of payloads. -/

namespace Sys2Proof.Machine

/-- The number that `permute` reads a list of bits as, bit by bit from the right. -/
theorem testBit_foldl_bits (f : Nat → Bool) (T : List Nat) (p : Nat) :
    (T.foldl (fun acc j => 2 * acc + (f j).toNat) 0).testBit p = (T.reverse[p]?.map f).getD false := by
  induction T using List.reverseRecOn generalizing p with
  | nil => simp
  | append_singleton T j ih =>
    simp only [List.foldl_append, List.foldl_cons, List.foldl_nil, List.reverse_append, List.reverse_singleton,
      List.singleton_append]
    cases p with
    | zero => cases h : f j <;> simp [h]
    | succ p =>
      rw [Nat.testBit_succ, show (2 * _ + (f j).toNat) / 2 = T.foldl (fun acc j => 2 * acc + (f j).toNat) 0 by
        cases f j <;> simp; omega, ih]
      simp

/-- Bit `p` from the right of a permutation's result, for a result as wide as its table (R110). -/
theorem getLsbD_permute {n m : Nat} (T : List Nat) (v : BitVec n) (p : Nat) (h : T.length = m) (hp : p < m) :
    (permute (m := m) T v).getLsbD p = bitM v (T.getD (m - 1 - p) 0) := by
  subst h
  have hr : T.length - 1 - p < T.length := by omega
  rw [permute, BitVec.getLsbD_ofNat, testBit_foldl_bits, List.getElem?_reverse (by simpa using hp),
    List.getElem?_eq_getElem hr, List.getD_eq_getElem _ _ hr]
  simp [hp]

/-- DES numbering is the numbering from the right, counted down. -/
theorem bitM_eq {n : Nat} (v : BitVec n) (i : Nat) : bitM v i = v.getLsbD (n - i) := rfl

/-- Two vectors that agree in DES numbering are equal. -/
theorem eq_of_bitM_eq {n : Nat} {v w : BitVec n} (h : ∀ i, 1 ≤ i → i ≤ n → bitM v i = bitM w i) : v = w := by
  apply BitVec.eq_of_getLsbD_eq
  intro p hp
  have := h (n - p) (by omega) (by omega)
  rwa [bitM, bitM, show n - (n - p) = p by omega] at this

@[simp] theorem tableIP_length : tableIP.length = 64 := by decide
@[simp] theorem tableFP_length : tableFP.length = 64 := by decide
@[simp] theorem tablePC1_length : tablePC1.length = 56 := by decide
@[simp] theorem tablePC2_length : tablePC2.length = 48 := by decide
@[simp] theorem tableE_length : tableE.length = 48 := by decide
@[simp] theorem tableP_length : tableP.length = 32 := by decide

/-- The rounds' halves, as the working registers hold them after the first `i` turns of R145's loop. -/
theorem deriveTurn_foldl (w : Working) (K : Schedule) (key : Block) (i n : Nat)
    (hc : w.c = (halvesAfter key i).c) (hd : w.d = (halvesAfter key i).d) :
    ((List.range' (i + 1) n).foldl deriveTurn (w, K)).2 =
      (List.range' (i + 1) n).foldl (fun K j => K.setIfInBounds (j - 1) (subkeyOf key j)) K := by
  induction n generalizing w K i with
  | zero => rfl
  | succ n ih =>
    rw [List.range'_succ, List.foldl_cons, List.foldl_cons]
    have hc' : rol28 w.c (shiftAmount (i + 1)) = (halvesAfter key (i + 1)).c := by rw [hc]; rfl
    have hd' : rol28 w.d (shiftAmount (i + 1)) = (halvesAfter key (i + 1)).d := by rw [hd]; rfl
    have hk : compressHalves { c := rol28 w.c (shiftAmount (i + 1)), d := rol28 w.d (shiftAmount (i + 1)) } =
        subkeyOf key (i + 1) := by rw [hc', hd']; rfl
    rw [show deriveTurn (w, K) (i + 1) =
        ({ w with rnd := BitVec.ofNat 5 (i + 1), c := rol28 w.c (shiftAmount (i + 1)),
                  d := rol28 w.d (shiftAmount (i + 1)) }, K.setIfInBounds (i + 1 - 1) (subkeyOf key (i + 1)))
        from by rw [← hk]; rfl]
    exact ih _ _ (i + 1) hc' hd'

/-- Writing the sixteen registers in turn leaves the schedule, whatever they held before. -/
theorem setIfInBounds_foldl (K : Schedule) (f : Nat → Subkey) :
    (List.range' 1 16).foldl (fun K j => K.setIfInBounds (j - 1) (f j)) K = Vector.ofFn fun i => f (i.val + 1) := by
  apply Vector.ext
  intro i hi
  simp only [List.range'_succ, List.range'_zero, List.foldl_cons, List.foldl_nil, Vector.getElem_setIfInBounds,
    Vector.getElem_ofFn]
  interval_cases i <;> rfl

/-- R145 on the working registers computes the schedule, whatever the registers held before (R25). -/
@[simp] theorem deriveOn_schedule (w : Working) (key : Block) : (deriveOn w key).2 = scheduleOf key := by
  rw [deriveOn, deriveTurn_foldl _ _ key 0 _ rfl rfl]
  exact setIfInBounds_foldl _ _

/-- The halves that the working registers hold along R186's loop are those of the rounds. -/
theorem feistelTurn_foldl (dir : Direction) (K : Schedule) (rounds : List Nat) (w : Working) :
    (⟨(rounds.foldl (feistelTurn dir K) w).l, (rounds.foldl (feistelTurn dir K) w).r⟩ : LR) =
      rounds.foldl (fun x i => feistelRound x (roundKey dir K i)) ⟨w.l, w.r⟩ := by
  induction rounds generalizing w with
  | nil => rfl
  | cons i rounds ih => rw [List.foldl_cons, List.foldl_cons, ih]; rfl

/-- R186 on the working registers computes the block function, whatever the registers held before (R25). -/
@[simp] theorem feistelOn_block (w : Working) (block : Block) (K : Schedule) (dir : Direction) :
    (feistelOn w block K dir).2 = feistel block K dir := by
  rw [feistelOn, feistel, ← feistelTurn_foldl dir K _
    { w with blk := block, l := (initialSplit block).l, r := (initialSplit block).r }]

/-- The blocks of a stream on the working registers are those of `process`. -/
@[simp] theorem processOn_eq (w : Working) (K : Schedule) (dir : Direction) (blocks : List Block) :
    processOn w K dir blocks = process blocks K dir := by
  induction blocks generalizing w with
  | nil => rfl
  | cons b bs ih => rw [processOn, ih, feistelOn_block]; rfl

@[simp] theorem process_length (blocks : List Block) (K : Schedule) (dir : Direction) :
    (process blocks K dir).length = blocks.length := by simp [process]

@[simp] theorem unchunk_length (blocks : List Block) : (unchunk blocks).length = 8 * blocks.length := by
  induction blocks with
  | nil => rfl
  | cons b bs ih => simp only [unchunk, List.flatMap_cons, List.length_append, bytes_length] at *; simp [ih]; omega

@[simp] theorem chunk_length (s : List Byte) : (chunk s).length = (s.length + 7) / 8 := by simp [chunk]

@[simp] theorem deserialise_length (s : List Byte) : (deserialise s).1.length = s.length / 8 := by
  simp [deserialise]

@[simp] theorem schedulePayload_length (K : Schedule) : (schedulePayload K).length = 96 := by
  simp [schedulePayload, List.length_flatMap]

end Sys2Proof.Machine
end

