-- ==== Sys2Proof/Laws/Decode.lean ====
section
/-! SUPPORT. What each helper of the decoder can answer. -/

namespace Sys2Proof

theorem wellFormed_derive (key : List Byte) : (Instr.derive key).wellFormed = true ↔ key.length < 2 ^ 8 := by
  rw [Instr.wellFormed, decide_eq_true_iff, Config.keyLengthBound]

theorem wellFormed_encs (data : List Byte) : (Instr.encs data).wellFormed = true ↔ data.length < 2 ^ 32 := by
  rw [Instr.wellFormed, decide_eq_true_iff, Config.streamLengthBound]

theorem wellFormed_decs (data : List Byte) : (Instr.decs data).wellFormed = true ↔ data.length < 2 ^ 32 := by
  rw [Instr.wellFormed, decide_eq_true_iff, Config.streamLengthBound]

theorem decodeFixed_append (m : Nat) (mk : List Byte → Instr) (d rest : List Byte) (h : d.length = m) :
    decodeFixed m mk (d ++ rest) = .packet (mk d) rest := by
  subst h; simp [decodeFixed]

theorem decodeStream_append (mk : List Byte → Instr) (d rest : List Byte) (h : d.length < 2 ^ 32) :
    decodeStream mk (bytes (BitVec.ofNat 32 d.length) ++ d ++ rest) = .packet (mk d) rest := by
  have e : (bytes (BitVec.ofNat 32 d.length)).length = 4 := by simp
  rw [decodeStream, if_neg (by simp), List.append_assoc, ← e, List.take_left, List.drop_left,
    be_length_field _ h, decodeFixed_append _ _ _ _ rfl]

theorem decodeKey_append (mk : List Byte → Instr) (d rest : List Byte) (h : d.length < 2 ^ 8) :
    decodeKey mk (BitVec.ofNat 8 d.length :: (d ++ rest)) = .packet (mk d) rest := by
  rw [decodeKey, decodeFixed_append _ _ _ _ (by simp; omega)]

/-- The two answers of the data bytes' decoder. -/
theorem decodeFixed_cases (m : Nat) (mk : List Byte → Instr) (bs : List Byte) :
    (bs.length < m ∧ decodeFixed m mk bs = .incompletePacket) ∨
      ∃ d rest, d.length = m ∧ bs = d ++ rest ∧ decodeFixed m mk bs = .packet (mk d) rest := by
  by_cases h : bs.length < m
  · exact .inl ⟨h, by simp [decodeFixed, h]⟩
  · refine .inr ⟨bs.take m, bs.drop m, by simp; omega, by simp, by simp [decodeFixed, h]⟩

/-- The three answers of format K. -/
theorem decodeKey_cases (mk : List Byte → Instr) (bs : List Byte) :
    (bs = [] ∧ decodeKey mk bs = .incompletePacket) ∨
      (∃ n d, bs = n :: d ∧ d.length < n.toNat ∧ decodeKey mk bs = .incompletePacket) ∨
        ∃ d rest, d.length < 2 ^ 8 ∧ bs = BitVec.ofNat 8 d.length :: (d ++ rest) ∧
          decodeKey mk bs = .packet (mk d) rest := by
  cases bs with
  | nil => exact .inl ⟨rfl, rfl⟩
  | cons n bs =>
    obtain ⟨h, e⟩ | ⟨d, rest, h, rfl, e⟩ := decodeFixed_cases n.toNat mk bs
    · exact .inr (.inl ⟨n, bs, rfl, h, e⟩)
    · refine .inr (.inr ⟨d, rest, by have := n.isLt; omega, ?_, e⟩)
      rw [h]; simp

/-- The three answers of format S. -/
theorem decodeStream_cases (mk : List Byte → Instr) (bs : List Byte) :
    (bs.length < 4 ∧ decodeStream mk bs = .incompletePacket) ∨
      (∃ n d, n < 2 ^ 32 ∧ bs = bytes (BitVec.ofNat 32 n) ++ d ∧ d.length < n ∧
        decodeStream mk bs = .incompletePacket) ∨
        ∃ d rest, d.length < 2 ^ 32 ∧ bs = bytes (BitVec.ofNat 32 d.length) ++ (d ++ rest) ∧
          decodeStream mk bs = .packet (mk d) rest := by
  by_cases h4 : bs.length < 4
  · exact .inl ⟨h4, by simp [decodeStream, h4]⟩
  · have hb : bytes (BitVec.ofNat 32 (be 32 (bs.take 4)).toNat) = bs.take 4 := by
      rw [BitVec.ofNat_toNat, BitVec.setWidth_eq]
      exact bytes_be 32 _ (by simp; omega)
    have hlt := (be 32 (bs.take 4)).isLt
    have hs : bs = bytes (BitVec.ofNat 32 (be 32 (bs.take 4)).toNat) ++ bs.drop 4 := by
      rw [hb, List.take_append_drop]
    have hd : decodeStream mk bs = decodeFixed (be 32 (bs.take 4)).toNat mk (bs.drop 4) := by
      simp [decodeStream, h4]
    obtain ⟨h, e⟩ | ⟨d, rest, h, hdr, e⟩ := decodeFixed_cases (be 32 (bs.take 4)).toNat mk (bs.drop 4)
    · exact .inr (.inl ⟨_, _, hlt, hs, h, hd.trans e⟩)
    · refine .inr (.inr ⟨d, rest, h ▸ hlt, ?_, hd.trans e⟩)
      rw [h, ← hdr]; exact hs

end Sys2Proof
end

