-- ==== Sys2Proof/Laws/State.lean ====
section
/-! SUPPORT. The fields of the state after each shared operation, one lemma for each field. -/

namespace Sys2Proof.Machine

/-! `State.fetched` -/

@[simp] theorem State.fetched_ks (s : State) (i : Instr) (rest : List Byte) :
    (s.fetched i rest).ks = s.ks := rfl

@[simp] theorem State.fetched_eKeylen (s : State) (i : Instr) (rest : List Byte) :
    (s.fetched i rest).eKeylen = s.eKeylen := rfl

@[simp] theorem State.fetched_eNosched (s : State) (i : Instr) (rest : List Byte) :
    (s.fetched i rest).eNosched = s.eNosched := rfl

@[simp] theorem State.fetched_wTrunc (s : State) (i : Instr) (rest : List Byte) :
    (s.fetched i rest).wTrunc = s.wTrunc := rfl

@[simp] theorem State.fetched_halted (s : State) (i : Instr) (rest : List Byte) :
    (s.fetched i rest).halted = s.halted := rfl

@[simp] theorem State.fetched_cmd (s : State) (i : Instr) (rest : List Byte) :
    (s.fetched i rest).cmd = rest := rfl

@[simp] theorem State.fetched_rsp (s : State) (i : Instr) (rest : List Byte) :
    (s.fetched i rest).rsp = s.rsp := rfl

@[simp] theorem State.fetched_work (s : State) (i : Instr) (rest : List Byte) :
    (s.fetched i rest).work = { s.work with opc := i.opcode, cnt := 0 } := rfl

@[simp] theorem State.fetched_draws (s : State) (i : Instr) (rest : List Byte) :
    (s.fetched i rest).draws = s.draws := rfl

/-! `State.respond` -/

@[simp] theorem State.respond_ks (s : State) (st : StatusCode) (payload : List Byte) :
    (s.respond st payload).ks = s.ks := rfl

@[simp] theorem State.respond_eKeylen (s : State) (st : StatusCode) (payload : List Byte) :
    (s.respond st payload).eKeylen = s.eKeylen := rfl

@[simp] theorem State.respond_eNosched (s : State) (st : StatusCode) (payload : List Byte) :
    (s.respond st payload).eNosched = s.eNosched := rfl

@[simp] theorem State.respond_wTrunc (s : State) (st : StatusCode) (payload : List Byte) :
    (s.respond st payload).wTrunc = s.wTrunc := rfl

@[simp] theorem State.respond_halted (s : State) (st : StatusCode) (payload : List Byte) :
    (s.respond st payload).halted = s.halted := rfl

@[simp] theorem State.respond_cmd (s : State) (st : StatusCode) (payload : List Byte) :
    (s.respond st payload).cmd = s.cmd := rfl

@[simp] theorem State.respond_rsp (s : State) (st : StatusCode) (payload : List Byte) :
    (s.respond st payload).rsp = s.rsp ++ st.code :: payload := rfl

@[simp] theorem State.respond_work (s : State) (st : StatusCode) (payload : List Byte) :
    (s.respond st payload).work = Working.free s.draws := rfl

@[simp] theorem State.respond_draws (s : State) (st : StatusCode) (payload : List Byte) :
    (s.respond st payload).draws = s.draws + 1 := rfl

/-! `State.warnTruncated` -/

@[simp] theorem State.warnTruncated_ks (s : State) (payload : List Byte) :
    (s.warnTruncated payload).ks = s.ks := rfl

@[simp] theorem State.warnTruncated_eKeylen (s : State) (payload : List Byte) :
    (s.warnTruncated payload).eKeylen = s.eKeylen := rfl

@[simp] theorem State.warnTruncated_eNosched (s : State) (payload : List Byte) :
    (s.warnTruncated payload).eNosched = s.eNosched := rfl

@[simp] theorem State.warnTruncated_wTrunc (s : State) (payload : List Byte) :
    (s.warnTruncated payload).wTrunc = true := rfl

@[simp] theorem State.warnTruncated_halted (s : State) (payload : List Byte) :
    (s.warnTruncated payload).halted = s.halted := rfl

@[simp] theorem State.warnTruncated_cmd (s : State) (payload : List Byte) :
    (s.warnTruncated payload).cmd = s.cmd := rfl

@[simp] theorem State.warnTruncated_rsp (s : State) (payload : List Byte) :
    (s.warnTruncated payload).rsp = s.rsp ++ StatusCode.truncatedBlock.code :: payload := rfl

@[simp] theorem State.warnTruncated_work (s : State) (payload : List Byte) :
    (s.warnTruncated payload).work = Working.free s.draws := rfl

@[simp] theorem State.warnTruncated_draws (s : State) (payload : List Byte) :
    (s.warnTruncated payload).draws = s.draws + 1 := rfl

/-! `State.illegalCommand` -/

@[simp] theorem State.illegalCommand_ks (s : State) (rest : List Byte) :
    (s.illegalCommand rest).ks = s.ks := rfl

@[simp] theorem State.illegalCommand_eKeylen (s : State) (rest : List Byte) :
    (s.illegalCommand rest).eKeylen = s.eKeylen := rfl

@[simp] theorem State.illegalCommand_eNosched (s : State) (rest : List Byte) :
    (s.illegalCommand rest).eNosched = s.eNosched := rfl

@[simp] theorem State.illegalCommand_wTrunc (s : State) (rest : List Byte) :
    (s.illegalCommand rest).wTrunc = s.wTrunc := rfl

@[simp] theorem State.illegalCommand_halted (s : State) (rest : List Byte) :
    (s.illegalCommand rest).halted = true := rfl

@[simp] theorem State.illegalCommand_cmd (s : State) (rest : List Byte) :
    (s.illegalCommand rest).cmd = rest := rfl

@[simp] theorem State.illegalCommand_rsp (s : State) (rest : List Byte) :
    (s.illegalCommand rest).rsp = s.rsp ++ [StatusCode.illegalCommand.code] := rfl

@[simp] theorem State.illegalCommand_work (s : State) (rest : List Byte) :
    (s.illegalCommand rest).work = Working.free s.draws := rfl

@[simp] theorem State.illegalCommand_draws (s : State) (rest : List Byte) :
    (s.illegalCommand rest).draws = s.draws + 1 := rfl

/-! `State.clearRegisters` -/

@[simp] theorem State.clearRegisters_ks (s : State) :
    (s.clearRegisters).ks = none := rfl

@[simp] theorem State.clearRegisters_eKeylen (s : State) :
    (s.clearRegisters).eKeylen = false := rfl

@[simp] theorem State.clearRegisters_eNosched (s : State) :
    (s.clearRegisters).eNosched = false := rfl

@[simp] theorem State.clearRegisters_wTrunc (s : State) :
    (s.clearRegisters).wTrunc = false := rfl

@[simp] theorem State.clearRegisters_halted (s : State) :
    (s.clearRegisters).halted = s.halted := rfl

@[simp] theorem State.clearRegisters_cmd (s : State) :
    (s.clearRegisters).cmd = s.cmd := rfl

@[simp] theorem State.clearRegisters_rsp (s : State) :
    (s.clearRegisters).rsp = s.rsp := rfl

@[simp] theorem State.clearRegisters_work (s : State) :
    (s.clearRegisters).work = s.work := rfl

@[simp] theorem State.clearRegisters_draws (s : State) :
    (s.clearRegisters).draws = s.draws := rfl

/-! `State.hostSend` -/

@[simp] theorem State.hostSend_ks (s : State) (sent : List Byte) :
    (s.hostSend sent).ks = s.ks := rfl

@[simp] theorem State.hostSend_eKeylen (s : State) (sent : List Byte) :
    (s.hostSend sent).eKeylen = s.eKeylen := rfl

@[simp] theorem State.hostSend_eNosched (s : State) (sent : List Byte) :
    (s.hostSend sent).eNosched = s.eNosched := rfl

@[simp] theorem State.hostSend_wTrunc (s : State) (sent : List Byte) :
    (s.hostSend sent).wTrunc = s.wTrunc := rfl

@[simp] theorem State.hostSend_halted (s : State) (sent : List Byte) :
    (s.hostSend sent).halted = s.halted := rfl

@[simp] theorem State.hostSend_cmd (s : State) (sent : List Byte) :
    (s.hostSend sent).cmd = s.cmd ++ sent := rfl

@[simp] theorem State.hostSend_rsp (s : State) (sent : List Byte) :
    (s.hostSend sent).rsp = s.rsp := rfl

@[simp] theorem State.hostSend_work (s : State) (sent : List Byte) :
    (s.hostSend sent).work = s.work := rfl

@[simp] theorem State.hostSend_draws (s : State) (sent : List Byte) :
    (s.hostSend sent).draws = s.draws := rfl

/-! `State.hardwareReset` -/

@[simp] theorem State.hardwareReset_ks (s : State) :
    (s.hardwareReset).ks = none := rfl

@[simp] theorem State.hardwareReset_eKeylen (s : State) :
    (s.hardwareReset).eKeylen = false := rfl

@[simp] theorem State.hardwareReset_eNosched (s : State) :
    (s.hardwareReset).eNosched = false := rfl

@[simp] theorem State.hardwareReset_wTrunc (s : State) :
    (s.hardwareReset).wTrunc = false := rfl

@[simp] theorem State.hardwareReset_halted (s : State) :
    (s.hardwareReset).halted = false := rfl

@[simp] theorem State.hardwareReset_cmd (s : State) :
    (s.hardwareReset).cmd = [] := rfl

@[simp] theorem State.hardwareReset_rsp (s : State) :
    (s.hardwareReset).rsp = [] := rfl

@[simp] theorem State.hardwareReset_work (s : State) :
    (s.hardwareReset).work = Working.free s.draws := rfl

@[simp] theorem State.hardwareReset_draws (s : State) :
    (s.hardwareReset).draws = s.draws + 1 := rfl

/-! `State.raiseError`: the sticky bit of the error, and its status byte. -/

@[simp] theorem State.raiseError_ks (s : State) (e : ErrorKind) :
    (s.raiseError e).ks = s.ks := by
  cases e <;> rfl

@[simp] theorem State.raiseError_eKeylen (s : State) (e : ErrorKind) :
    (s.raiseError e).eKeylen = (s.eKeylen || decide (e = .invalidKeyLength)) := by
  cases e <;> simp [State.raiseError, State.setSticky, State.respond]

@[simp] theorem State.raiseError_eNosched (s : State) (e : ErrorKind) :
    (s.raiseError e).eNosched = (s.eNosched || decide (e = .noSchedule)) := by
  cases e <;> simp [State.raiseError, State.setSticky, State.respond]

@[simp] theorem State.raiseError_wTrunc (s : State) (e : ErrorKind) :
    (s.raiseError e).wTrunc = s.wTrunc := by
  cases e <;> rfl

@[simp] theorem State.raiseError_halted (s : State) (e : ErrorKind) :
    (s.raiseError e).halted = s.halted := by
  cases e <;> rfl

@[simp] theorem State.raiseError_cmd (s : State) (e : ErrorKind) :
    (s.raiseError e).cmd = s.cmd := by
  cases e <;> rfl

@[simp] theorem State.raiseError_rsp (s : State) (e : ErrorKind) :
    (s.raiseError e).rsp = s.rsp ++ [e.status.code] := by
  cases e <;> rfl

@[simp] theorem State.raiseError_work (s : State) (e : ErrorKind) :
    (s.raiseError e).work = Working.free s.draws := by
  cases e <;> rfl

@[simp] theorem State.raiseError_draws (s : State) (e : ErrorKind) :
    (s.raiseError e).draws = s.draws + 1 := by
  cases e <;> rfl

/-! The guard on `KS_VALID`. -/

@[simp] theorem State.withSchedule_some (s : State) (run : Schedule → State) (K : Schedule) (h : s.ks = some K) :
    s.withSchedule run = run K := by simp [State.withSchedule, h]

@[simp] theorem State.withSchedule_none (s : State) (run : Schedule → State) (h : s.ks = none) :
    s.withSchedule run = s.raiseError .noSchedule := by simp [State.withSchedule, h]

/-- The two things a command that reads `KS` can come to (R243). -/
theorem State.withSchedule_cases (s : State) (run : Schedule → State) :
    (s.ks = none ∧ s.withSchedule run = s.raiseError .noSchedule) ∨
      ∃ K, s.ks = some K ∧ s.withSchedule run = run K := by
  cases h : s.ks with
  | none => exact .inl ⟨rfl, s.withSchedule_none run h⟩
  | some K => exact .inr ⟨K, rfl, s.withSchedule_some run K h⟩

/-! The views. -/

@[simp] theorem State.ksValid_none (s : State) (h : s.ks = none) : s.ksValid = false := by simp [State.ksValid, h]

@[simp] theorem State.ksValid_some (s : State) (K : Schedule) (h : s.ks = some K) : s.ksValid = true := by
  simp [State.ksValid, h]

/-- `STATUS` depends on `KS_VALID` and the three sticky bits only. -/
theorem State.status_congr (s t : State) (hk : t.ks = s.ks) (h1 : t.eKeylen = s.eKeylen)
    (h2 : t.eNosched = s.eNosched) (h3 : t.wTrunc = s.wTrunc) : t.status = s.status := by
  simp [State.status, State.ksValid, hk, h1, h2, h3]

end Sys2Proof.Machine
end

