-- ==== Sys2Proof/Laws/Exec.lean ====
section
/-! SUPPORT. What each command and a step can do, said once: the next state of every command in terms of the pure
functions, and the cases of `step`. -/

namespace Sys2Proof.Machine

theorem exec_derive_ok (key : List Byte) (s : State) (h : key.length = 8) :
    exec (.derive key) s = .next ({ s with ks := some (scheduleOf (be 64 key)) }.respond .ok []) := by
  simp [exec, execDerive, Config.keyBytes, h]

theorem exec_derive_error (key : List Byte) (s : State) (h : key.length ≠ 8) :
    exec (.derive key) s = .next (s.raiseError .invalidKeyLength) := by
  simp [exec, execDerive, Config.keyBytes, h]

theorem exec_rdks_ok (s : State) (K : Schedule) (h : s.ks = some K) :
    exec .rdks s = .next (s.respond .ok (schedulePayload K)) := by
  simp [exec, execRdks, h]

theorem exec_rndf (half : Half) (subkey : Subkey) (s : State) :
    exec (.rndf half subkey) s = .next (s.respond .ok (bytes (roundF half subkey))) := rfl

theorem exec_encb_ok (b : Block) (s : State) (K : Schedule) (h : s.ks = some K) :
    exec (.encb b) s = .next (s.respond .ok (bytes (encryptBlock b K))) := by
  simp [exec, execEncb, h, encryptBlock]

theorem exec_decb_ok (b : Block) (s : State) (K : Schedule) (h : s.ks = some K) :
    exec (.decb b) s = .next (s.respond .ok (bytes (decryptBlock b K))) := by
  simp [exec, execDecb, h, decryptBlock]

theorem exec_encs_ok (data : List Byte) (s : State) (K : Schedule) (h : s.ks = some K) :
    exec (.encs data) s = .next (s.respond .ok (encryptStream data K)) := by
  simp [exec, execEncs, h, encryptStream]

theorem exec_decs_ok (data : List Byte) (s : State) (K : Schedule) (h : s.ks = some K) (h8 : data.length % 8 = 0) :
    exec (.decs data) s = .next (s.respond .ok (decryptStream data K).1) := by
  simp [exec, execDecs, h, h8, decryptStream]

theorem exec_decs_truncated (data : List Byte) (s : State) (K : Schedule) (h : s.ks = some K)
    (h8 : data.length % 8 ≠ 0) :
    exec (.decs data) s = .next (s.warnTruncated (decryptStream data K).1) := by
  simp [exec, execDecs, h, h8, decryptStream]

theorem exec_rst (s : State) : exec .rst s = .next (s.clearRegisters.respond .ok []) := rfl

theorem exec_rdst (s : State) : exec .rdst s = .next (s.respond .ok [s.status]) := rfl

theorem exec_noSchedule (i : Instr) (s : State) (hi : readsSchedule i = true) (h : s.ks = none) :
    exec i s = .next (s.raiseError .noSchedule) := by
  cases i <;> simp [readsSchedule] at hi <;>
    simp [exec, execRdks, execEncb, execDecb, execEncs, execDecs, h]

/-- Everything a command can come to: one of the shared operations, on registers it may have written before. -/
theorem exec_cases (i : Instr) (s : State) :
    (∃ e, exec i s = .next (s.raiseError e)) ∨
    (∃ payload, i ≠ .rst ∧ payload.length = i.payloadLength ∧ exec i s = .next (s.respond .ok payload)) ∨
    (∃ payload K, s.ks = some K ∧ payload.length = i.payloadLength ∧ exec i s = .next (s.warnTruncated payload)) ∨
    (∃ key, i = .derive key ∧ key.length = 8 ∧
      exec i s = .next ({ s with ks := some (scheduleOf (be 64 key)) }.respond .ok [])) ∨
    (i = .rst ∧ exec i s = .next (s.clearRegisters.respond .ok [])) := by
  by_cases hr : readsSchedule i = true
  · cases hk : s.ks with
    | none => exact .inl ⟨_, exec_noSchedule i s hr hk⟩
    | some K =>
      cases i with
      | derive key => cases hr
      | rdks => exact .inr (.inl ⟨_, nofun, by simp [Instr.payloadLength], exec_rdks_ok s K hk⟩)
      | rndf => cases hr
      | encb b => exact .inr (.inl ⟨_, nofun, by simp [Instr.payloadLength], exec_encb_ok b s K hk⟩)
      | decb b => exact .inr (.inl ⟨_, nofun, by simp [Instr.payloadLength], exec_decb_ok b s K hk⟩)
      | encs d =>
        exact .inr (.inl ⟨_, nofun, by simp [Instr.payloadLength, encryptStream], exec_encs_ok d s K hk⟩)
      | decs d =>
        by_cases h8 : d.length % 8 = 0
        · exact .inr (.inl ⟨_, nofun, by simp [Instr.payloadLength, decryptStream], exec_decs_ok d s K hk h8⟩)
        · exact .inr (.inr (.inl ⟨_, K, rfl, by simp [Instr.payloadLength, decryptStream],
            exec_decs_truncated d s K hk h8⟩))
      | rst => cases hr
      | rdst => cases hr
  · cases i with
    | derive key =>
      by_cases h : key.length = 8
      · exact .inr (.inr (.inr (.inl ⟨key, rfl, h, exec_derive_ok key s h⟩)))
      · exact .inl ⟨_, exec_derive_error key s h⟩
    | rdks => exact absurd rfl hr
    | rndf half subkey => exact .inr (.inl ⟨_, nofun, by simp [Instr.payloadLength], exec_rndf half subkey s⟩)
    | encb => exact absurd rfl hr
    | decb => exact absurd rfl hr
    | encs => exact absurd rfl hr
    | decs => exact absurd rfl hr
    | rst => exact .inr (.inr (.inr (.inr ⟨rfl, exec_rst s⟩)))
    | rdst => exact .inr (.inl ⟨_, nofun, by simp [Instr.payloadLength], exec_rdst s⟩)

/-- A command answers the state that `perform` names. -/
theorem exec_eq_perform (i : Instr) (s : State) : exec i s = .next (s.perform i) := by
  obtain ⟨e, h⟩ | ⟨p, _, _, h⟩ | ⟨p, K, _, _, h⟩ | ⟨k, _, _, h⟩ | ⟨_, h⟩ := exec_cases i s <;>
    simp [State.perform, h]

/-- The state that `perform` names, from the command's answer. -/
theorem perform_of_next {i : Instr} {s t : State} (h : exec i s = .next t) : s.perform i = t := by
  simp [State.perform, h]

/-- A command neither halts the engine nor takes anything from `CMD`. -/
theorem perform_frame (i : Instr) (s : State) : (s.perform i).halted = s.halted ∧ (s.perform i).cmd = s.cmd := by
  obtain ⟨e, h⟩ | ⟨p, _, _, h⟩ | ⟨p, K, _, _, h⟩ | ⟨k, _, _, h⟩ | ⟨_, h⟩ := exec_cases i s <;>
    simp [State.perform, h]

/-! The four cases of `step`, and the halted engine. -/

theorem step_halted (s : State) (h : s.halted = true) : step s = .fault .halted := by simp [step, h]

theorem step_packet (s : State) (i : Instr) (rest : List Byte) (hh : s.halted = false)
    (h : decode s.cmd = .packet i rest) : step s = exec i (s.fetched i rest) := by simp [step, hh, h]

theorem step_illegalOpcode (s : State) (op : Byte) (rest : List Byte) (hh : s.halted = false)
    (h : decode s.cmd = .illegalOpcode op rest) : step s = .next (s.illegalCommand rest) := by simp [step, hh, h]

theorem step_incompletePacket (s : State) (hh : s.halted = false) (h : decode s.cmd = .incompletePacket) :
    step s = .fault .incompletePacket := by simp [step, hh, h]

theorem step_noPacket (s : State) (hh : s.halted = false) (h : decode s.cmd = .noPacket) :
    step s = .fault .noCommand := by simp [step, hh, h]

/-- A run of any machine goes on from the state its first step answers. -/
theorem core_run_succ (M : Host.Core) (k : Nat) (s t : M.State) (h : M.step s = .next t) :
    M.run (k + 1) s = M.run k t := by
  simp only [Host.Core.run, h]

theorem run_succ (k : Nat) (s t : State) (h : step s = .next t) :
    Host.Core.run core (k + 1) s = Host.Core.run core k t := core_run_succ core k s t h

/-- The cases of a step that answers a next state. -/
theorem step_cases (s t : State) (h : step s = .next t) :
    s.halted = false ∧
      ((∃ i rest, decode s.cmd = .packet i rest ∧ t = (s.fetched i rest).perform i) ∨
        (∃ op rest, decode s.cmd = .illegalOpcode op rest ∧ t = s.illegalCommand rest)) := by
  unfold step at h
  cases hh : s.halted with
  | true => simp [hh] at h
  | false =>
    refine ⟨rfl, ?_⟩
    rw [hh] at h
    cases hd : decode s.cmd with
    | packet i rest =>
      rw [hd] at h
      simp only [exec_eq_perform, Bool.false_eq_true, if_false, Host.Outcome.next.injEq] at h
      exact .inl ⟨i, rest, rfl, h.symm⟩
    | illegalOpcode op rest =>
      rw [hd] at h
      simp only [Bool.false_eq_true, if_false, Host.Outcome.next.injEq] at h
      exact .inr ⟨op, rest, rfl, h.symm⟩
    | incompletePacket => rw [hd] at h; simp at h
    | noPacket => rw [hd] at h; simp at h

end Sys2Proof.Machine
end

