-- ==== Sys2Proof/Laws/PerInstr.lean ====
section
/-! SUPPORT. Statements for all commands, made per constructor. Family PacketLength: the decoder knows a packet's
length from its first bytes (spec/30_encoding.md R87). -/

namespace Sys2Proof.Laws.PacketLength

/-- The length the decoder reads from a well-formed command's packet is the packet's length. -/
def Statement (i : Instr) : Prop := i.wellFormed = true → packetLength (encode i) = some (encode i).length

theorem derive (key : List Byte) : Statement (.derive key) := by
  intro h
  have h' : key.length < 256 := (wellFormed_derive key).mp h
  simp [encode, Instr.opcode, Instr.lengthField, Instr.operand, packetLength, Nat.mod_eq_of_lt h']
  omega

theorem rdks : Statement .rdks := fun _ => rfl

theorem rndf (half : Half) (subkey : Subkey) : Statement (.rndf half subkey) := fun _ => by
  simp [encode, Instr.opcode, Instr.lengthField, Instr.operand, packetLength]

theorem encb (block : Block) : Statement (.encb block) := fun _ => by
  simp [encode, Instr.opcode, Instr.lengthField, Instr.operand, packetLength]

theorem decb (block : Block) : Statement (.decb block) := fun _ => by
  simp [encode, Instr.opcode, Instr.lengthField, Instr.operand, packetLength]

/-- The two stream commands have one shape of packet. -/
theorem stream_length (data : List Byte) (h : data.length < 2 ^ 32) :
    (be 32 ((bytes (BitVec.ofNat 32 data.length) ++ data).take 4)).toNat = data.length := by
  rw [show 4 = (bytes (BitVec.ofNat 32 data.length)).length by simp, List.take_left, be_length_field _ h]

theorem stream_packet_length (data : List Byte) :
    5 + data.length = (bytes (BitVec.ofNat 32 data.length) ++ data).length + 1 := by
  simp; omega

theorem encs (data : List Byte) : Statement (.encs data) := by
  intro h
  have e := stream_length data ((wellFormed_encs data).mp h)
  change (if (bytes (BitVec.ofNat 32 data.length) ++ data).length < 4 then none
    else some (5 + (be 32 ((bytes (BitVec.ofNat 32 data.length) ++ data).take 4)).toNat)) = _
  rw [if_neg (by simp), e, stream_packet_length]
  rfl

theorem decs (data : List Byte) : Statement (.decs data) := by
  intro h
  have e := stream_length data ((wellFormed_decs data).mp h)
  change (if (bytes (BitVec.ofNat 32 data.length) ++ data).length < 4 then none
    else some (5 + (be 32 ((bytes (BitVec.ofNat 32 data.length) ++ data).take 4)).toNat)) = _
  rw [if_neg (by simp), e, stream_packet_length]
  rfl

theorem rst : Statement .rst := fun _ => rfl

theorem rdst : Statement .rdst := fun _ => rfl

end Sys2Proof.Laws.PacketLength
end

