-- ==== Sys2Proof/Tests/Slice0.lean ====
section
/-! SUPPORT. Tests of one step each, with expected values from spec/95_test_vectors.md and spec/30_encoding.md, and one
witness for each obligation with hypotheses. Nothing imports this file. -/

namespace Sys2Proof.Tests

open Sys2Proof Sys2Proof.Machine

/-! ## Helpers -/

/-- The reset state with these bytes on `CMD`. -/
def sending (bs : List Byte) : State := { State.reset with cmd := bs }

/-- A state in which the schedule of a key is derived. -/
def keyed (key : Block) (bs : List Byte) : State := { sending bs with ks := some (scheduleOf key) }

/-- What the host can see after a step: `RSP`, `CMD`, `STATUS`, `HALTED`. -/
def seen (o : Host.Outcome State Fault Refusal) : Option (List Byte × List Byte × Byte × Bool) :=
  match o with
  | .next t => some (t.rsp, t.cmd, t.status, t.halted)
  | .fault _ => none
  | .refused _ => none

/-- One subkey after a step. -/
def subkeyAfter (i : Nat) (o : Host.Outcome State Fault Refusal) : Option Subkey :=
  match o with
  | .next t => t.ks.map fun K => scheduleKey K i
  | .fault _ => none
  | .refused _ => none

/-- The key of vector K1. -/
def keyK1 : Block := 0x133457799BBCDFF1

/-- The key of vector K2. -/
def keyK2 : Block := 0x0123456789ABCDEF

/-! ## Well-formedness: each check refuses an ill-formed command (R83, R85) -/

theorem test_wellFormed_derive_255 : (Instr.derive (zeros 255)).wellFormed = true := by
  rw [Instr.wellFormed, zeros_length]; rfl
theorem test_illFormed_derive_256 : (Instr.derive (zeros 256)).wellFormed = false := by
  rw [Instr.wellFormed, zeros_length]; rfl
theorem test_illFormed_encs_too_long : (Instr.encs (zeros (2 ^ 32))).wellFormed = false := by
  rw [Instr.wellFormed, zeros_length]; rfl
theorem test_illFormed_decs_too_long : (Instr.decs (zeros (2 ^ 32))).wellFormed = false := by
  rw [Instr.wellFormed, zeros_length]; rfl

/-! ## Decoding: packets written out bit by bit from R82 to R85 -/

theorem test_decode_derive : decode [0b00000001, 0b00000010, 0b10101011, 0b11001101, 0b00000010] =
    .packet (.derive [0xAB, 0xCD]) [0x02] := by decide
theorem test_decode_derive_empty : decode [0b00000001, 0b00000000] = .packet (.derive []) [] := by decide
theorem test_decode_rdks : decode [0b00000010] = .packet .rdks [] := by decide
theorem test_decode_rndf : decode [0b00000011, 0x12, 0x34, 0x56, 0x78, 0xAB, 0xCD, 0xEF, 0x01, 0x23, 0x45] =
    .packet (.rndf 0x12345678 0xABCDEF012345) [] := by decide
theorem test_decode_encb : decode [0b00000100, 0x80, 0, 0, 0, 0, 0, 0, 0x01] =
    .packet (.encb 0x8000000000000001) [] := by decide
theorem test_decode_decb : decode [0b00000101, 0x80, 0, 0, 0, 0, 0, 0, 0x01] =
    .packet (.decb 0x8000000000000001) [] := by decide
theorem test_decode_encs : decode [0b00000110, 0, 0, 0, 0b00000010, 0x41, 0x42, 0x43] =
    .packet (.encs [0x41, 0x42]) [0x43] := by decide
theorem test_decode_decs : decode [0b00000111, 0, 0, 0, 0b00000001, 0x41] = .packet (.decs [0x41]) [] := by decide
theorem test_decode_decs_length_is_big_endian : decode [0b00000111, 0, 0, 0b00000001, 0, 0x41] = .incompletePacket := by
  decide
theorem test_decode_rst : decode [0b00001000] = .packet .rst [] := by decide
theorem test_decode_rdst : decode [0b00001001, 0b00001000] = .packet .rdst [0x08] := by decide
theorem test_decode_illegal : decode [0x00] = .illegalOpcode 0x00 [] ∧ decode [0x0A, 0x01] = .illegalOpcode 0x0A [0x01] ∧
    decode [0xFF] = .illegalOpcode 0xFF [] := by decide

/-! ## The table's words, and the packet placed where the next step takes it -/

theorem test_decodeTableWord : decodeTableWord 8 0x01 = some (.derive []) ∧ decodeTableWord 8 0x03 = some (.rndf 0 0) ∧
    decodeTableWord 8 0x04 = some (.encb 0) ∧ decodeTableWord 8 0x06 = some (.encs []) ∧
    decodeTableWord 8 0x09 = some .rdst ∧ decodeTableWord 8 0x0A = none ∧ decodeTableWord 8 0x00 = none := by decide
theorem test_withFetchWord_runs_rdst : seen (step (State.reset.withFetchWord 8 0x09)) = some ([0x00, 0x00], [], 0x00, false) := by
  decide

/-! ## Text form (R93) -/

theorem test_assembly : (Instr.rndf 0xF0AAF0AA 0x1B02EFFC7072).assembly = "RNDF F0AAF0AA, 1B02EFFC7072" ∧
    (Instr.derive []).assembly = "DERIVE" ∧ Instr.rdst.assembly = "RDST" ∧
    (Instr.decs [0x97, 0x6F, 0x7F, 0xFE, 0xA9, 0x42, 0x67, 0x6C]).assembly = "DECS 976F7FFEA942676C" := by decide

/-! ## Commands: one step each (spec/95_test_vectors.md) -/

/-- Vector K1, subkeys 1 and 16; program 1, row 1. -/
theorem test_derive_stores_K1 :
    subkeyAfter 1 (step (sending [0x01, 0x08, 0x13, 0x34, 0x57, 0x79, 0x9B, 0xBC, 0xDF, 0xF1])) = some 0x1B02EFFC7072 ∧
    subkeyAfter 16 (step (sending [0x01, 0x08, 0x13, 0x34, 0x57, 0x79, 0x9B, 0xBC, 0xDF, 0xF1])) = some 0xCB3D8B0E17F5 ∧
    seen (step (sending [0x01, 0x08, 0x13, 0x34, 0x57, 0x79, 0x9B, 0xBC, 0xDF, 0xF1])) = some ([0x00], [], 0x01, false) := by
  decide +kernel

/-- Program 3, row 8 on a keyed engine: the earlier schedule stays. -/
theorem test_derive_wrong_length_keeps_schedule :
    seen (step (keyed keyK2 [0x01, 0x00, 0x09])) = some ([0x01], [0x09], 0x03, false) ∧
    subkeyAfter 1 (step (keyed keyK2 [0x01, 0x00, 0x09])) = some 0x0B02679B49A5 := by decide +kernel

/-- The payload under vector K2. -/
theorem test_rdks_payload : (seen (step (keyed keyK2 [0x02]))).map (·.1) = some ([0x00,
    0x0B, 0x02, 0x67, 0x9B, 0x49, 0xA5, 0x69, 0xA6, 0x59, 0x25, 0x6A, 0x26, 0x45, 0xD4, 0x8A, 0xB4, 0x28, 0xD2, 0x72, 0x89,
    0xD2, 0xA5, 0x82, 0x57, 0x3C, 0xE8, 0x03, 0x17, 0xA6, 0xC2, 0x23, 0x25, 0x1E, 0x3C, 0x85, 0x45, 0x6C, 0x04, 0x95, 0x0A,
    0xE4, 0xC6, 0x57, 0x88, 0x38, 0x6C, 0xE5, 0x81] ++ [
    0xC0, 0xC9, 0xE9, 0x26, 0xB8, 0x39, 0x91, 0xE3, 0x07, 0x63, 0x1D, 0x72, 0x21, 0x1F, 0x83, 0x0D, 0x89, 0x3A, 0x71, 0x30,
    0xE5, 0x45, 0x5C, 0x54, 0x91, 0xC4, 0xD0, 0x49, 0x80, 0xFC, 0x54, 0x43, 0xB6, 0x81, 0xDC, 0x8D, 0xB6, 0x91, 0x05, 0x0A,
    0x16, 0xB5, 0xCA, 0x3D, 0x03, 0xB8, 0x70, 0x32]) := by decide +kernel

/-- Program 3, row 13. -/
theorem test_rdks_without_schedule : seen (step (sending [0x02])) = some ([0x02], [], 0x04, false) := by decide

/-- Program 4, row 1; the engine has no schedule. -/
theorem test_rndf_worked_example :
    seen (step (sending [0x03, 0xF0, 0xAA, 0xF0, 0xAA, 0x1B, 0x02, 0xEF, 0xFC, 0x70, 0x72])) =
      some ([0x00, 0x23, 0x4A, 0xA9, 0xBB], [], 0x00, false) := by decide +kernel

/-- Vectors F1, F3, F5, F6, F7, F8, F9. -/
theorem test_rndf_corner_cases : roundF 0x00000000 0x000000000000 = 0xD8D8DBBC ∧
    roundF 0x00000000 0xFFFFFFFFFFFF = 0x38DBF9CB ∧ roundF 0x00000001 0x000000000000 = 0xD05AD19C ∧
    roundF 0x80000000 0x000000000000 = 0xD0585B9E ∧ roundF 0x00000000 0x800000000000 = 0xD858D9BC ∧
    roundF 0x00000000 0x000000000001 = 0xD0D8DB9C ∧ roundF 0x12345678 0xABCDEF012345 = 0x8BA99C9B := by decide +kernel

/-- Program 1, row 2 (vector B1). -/
theorem test_encb_B1 : seen (step (keyed keyK1 [0x04, 0x01, 0x23, 0x45, 0x67, 0x89, 0xAB, 0xCD, 0xEF])) =
    some ([0x00, 0x85, 0xE8, 0x13, 0x54, 0x0F, 0x0A, 0xB4, 0x05], [], 0x01, false) := by decide +kernel

/-- Program 3, row 1. -/
theorem test_encb_without_schedule : seen (step (sending [0x04, 0, 0, 0, 0, 0, 0, 0, 0])) = some ([0x02], [], 0x04, false) := by
  decide

/-- Program 1, row 3 (vector B1). -/
theorem test_decb_B1 : seen (step (keyed keyK1 [0x05, 0x85, 0xE8, 0x13, 0x54, 0x0F, 0x0A, 0xB4, 0x05])) =
    some ([0x00, 0x01, 0x23, 0x45, 0x67, 0x89, 0xAB, 0xCD, 0xEF], [], 0x01, false) := by decide +kernel

/-- Program 5, row 5. -/
theorem test_decb_under_another_key : seen (step (keyed keyK1 [0x05, 0x3F, 0xA4, 0x0E, 0x8A, 0x98, 0x4D, 0x48, 0x15])) =
    some ([0x00, 0x1F, 0xE9, 0xE0, 0x2E, 0xF9, 0xF7, 0xFD, 0xAA], [], 0x01, false) := by decide +kernel

/-- Vector T2. -/
theorem test_encs_hello : seen (step (keyed keyK2 [0x06, 0, 0, 0, 0x05, 0x48, 0x65, 0x6C, 0x6C, 0x6F])) =
    some ([0x00, 0x97, 0x6F, 0x7F, 0xFE, 0xA9, 0x42, 0x67, 0x6C], [], 0x01, false) := by decide +kernel

/-- Vector T6: nine bytes, two blocks. -/
theorem test_encs_two_blocks :
    seen (step (keyed keyK2 [0x06, 0, 0, 0, 0x09, 0x31, 0x32, 0x33, 0x34, 0x35, 0x36, 0x37, 0x38, 0x39])) =
      some ([0x00, 0xBD, 0x0B, 0x1A, 0x49, 0x07, 0x0A, 0xC3, 0x76, 0x5A, 0x70, 0x70, 0xBD, 0x64, 0x4E, 0x70, 0x88], [],
        0x01, false) := by decide +kernel

/-- Vector T7: the five trailing bytes are dropped. -/
theorem test_decs_truncated :
    seen (step (keyed keyK2 [0x07, 0, 0, 0, 0x0D, 0x3F, 0xA4, 0x0E, 0x8A, 0x98, 0x4D, 0x48, 0x15, 0x6A, 0x27, 0x17, 0x87,
      0xAB])) = some ([0x10, 0x4E, 0x6F, 0x77, 0x20, 0x69, 0x73, 0x20, 0x74], [], 0x09, false) := by decide +kernel

/-- Program 3, row 5: `NoSchedule` goes first and `W_TRUNC` stays clear. -/
theorem test_decs_without_schedule : seen (step (sending [0x07, 0, 0, 0, 0x01, 0xAB])) = some ([0x02], [], 0x04, false) := by
  decide

/-- Program 3, row 11: every sticky bit set, then `RST`. -/
theorem test_rst : seen (step { keyed keyK2 [0x08, 0x09] with eKeylen := true, eNosched := true, wTrunc := true }) =
    some ([0x00], [0x09], 0x00, false) := by decide

/-- Program 3, row 10: `E_KEYLEN`, `E_NOSCHED` and `KS_VALID`. -/
theorem test_rdst : seen (step { keyed keyK2 [0x09] with eKeylen := true, eNosched := true }) =
    some ([0x00, 0x07], [], 0x07, false) := by decide

/-- Program 4, row 3, with a byte after the illegal opcode; the next step has nothing to do. -/
theorem test_illegal_opcode : seen (step (sending [0x0A, 0x09])) = some ([0xFF], [0x09], 0x00, true) := by decide

/-- No step where there is no packet (R257, R275). -/
theorem test_no_step : step (sending []) = .fault .noCommand ∧ step (sending [0x06, 0, 0, 0]) = .fault .incompletePacket :=
  ⟨rfl, rfl⟩

/-! ## Tables and the pure functions (spec/95_test_vectors.md sections 1 to 5) -/

theorem test_permutations : permute (m := 64) tableIP (0x0123456789ABCDEF : Block) = 0xCC00CCFFF0AAF0AA ∧
    permute (m := 64) tableFP (0x0123456789ABCDEF : Block) = 0xFF330FAA00330FAA ∧
    permute (m := 64) tableIP (0x8000000000000000 : Block) = 0x0000000001000000 ∧
    permute (m := 56) tablePC1 keyK1 = 0xF0CCAAF556678F ∧
    permute (m := 48) tableE (0xF0AAF0AA : Half) = 0x7A15557A1555 ∧ permute (m := 48) tableE (0x00010000 : Half) = 0x000002800000 ∧
    permute (m := 32) tableP (0x5C82B597 : Half) = 0x234AA9BB ∧
    permute (m := 48) tablePC2 (0x80000000000000 : BitVec 56) = 0x080000000000 ∧
    permute (m := 48) tablePC2 (0x00800000000000 : BitVec 56) = 0x000000000000 := by decide +kernel

/-- R121, the items that are about the entries alone. -/
theorem test_table_checks : ipFpInverse ∧ pc1OmitsMultiplesOfEight ∧ pc2SelectsDistinctBits ∧ eRepeatsSixteenBits ∧
    pIsPermutation ∧ sboxRowsArePermutations ∧ shiftsSumToTwentyEight := by decide +kernel

/-- Vector K2, subkeys 2, 9, 15; vectors K4 and K11. -/
theorem test_key_schedules : scheduleKey (scheduleOf keyK2) 2 = 0x69A659256A26 ∧
    scheduleKey (scheduleOf keyK2) 9 = 0xC0C9E926B839 ∧ scheduleKey (scheduleOf keyK2) 15 = 0xB691050A16B5 ∧
    scheduleOf 0x0022446688AACCEE = scheduleOf keyK2 ∧ scheduleKey (scheduleOf 0x8000000000000000) 11 = 0x400000000000 := by
  decide +kernel

/-- Vectors B2 and B8, and the decryption of a block that was never encrypted. -/
theorem test_block_vectors : encryptBlock 0x4E6F772069732074 (scheduleOf keyK2) = 0x3FA40E8A984D4815 ∧
    encryptBlock 0x0123456789ABCDEF (scheduleOf 0xFEDCBA9876543210) = 0xED39D950FA74BCC4 ∧
    decryptBlock 0x0000000000000000 (scheduleOf keyK2) = 0x14AAD7F4DBB4E094 := by decide +kernel

/-- The ranges of section 5 for three blocks and two and four lanes. -/
theorem test_lane_ranges : (List.range 2).map (laneRange 2 3) = [(0, 1), (1, 3)] ∧
    (List.range 4).map (laneRange 4 3) = [(0, 0), (0, 0), (0, 0), (0, 3)] := by decide

/-! ## Witnesses: the hypotheses of each obligation hold together -/

theorem test_witness_DecodeReadsEveryEncodedCommand : (Instr.derive (zeros 255)).wellFormed = true ∧
    (Instr.encs []).wellFormed = true ∧ Instr.rdks.wellFormed = true ∧ (Instr.rndf 0 0).wellFormed = true :=
  ⟨test_wellFormed_derive_255, rfl, rfl, rfl⟩

theorem test_witness_AcceptedPacketIsItsCommandsEncoding : decode [0x01, 0x01, 0xAB, 0x09] = .packet (.derive [0xAB]) [0x09] := by
  decide

theorem test_witness_StepRunsTheDecodedCommand : (sending [0x08, 0x09]).halted = false ∧ Instr.rst.wellFormed = true ∧
    (sending [0x08, 0x09]).cmd = encode .rst ++ [0x09] := by decide

theorem test_witness_IllegalOpcodeHaltsTheEngine : ∀ op ∈ ([0x00, 0x0A, 0xFF] : List Byte),
    (sending [op, 0x09]).halted = false ∧ (sending [op, 0x09]).cmd = op :: [0x09] ∧ (op.toNat = 0 ∨ 0x0A ≤ op.toNat) := by
  decide

theorem test_witness_NothingOrPartOfAPacketGivesNoStep : ((sending []).halted = false ∧ (sending []).cmd = []) ∧
    ((sending [0x01, 0x02, 0xAB]).halted = false ∧ (Instr.derive [0xAB, 0xCD]).wellFormed = true ∧
      (sending [0x01, 0x02, 0xAB]).cmd ≠ [] ∧ ([0xCD] : List Byte) ≠ [] ∧
      (sending [0x01, 0x02, 0xAB]).cmd ++ [0xCD] = encode (.derive [0xAB, 0xCD])) := by decide

theorem test_witness_PacketsRunInOrderOneAtATime : (sending [0x08, 0x09, 0x04]).halted = false ∧
    (∀ i ∈ [Instr.rst, Instr.rdst], i.wellFormed = true) ∧
    (sending [0x08, 0x09, 0x04]).cmd = [Instr.rst, Instr.rdst].flatMap encode ++ [0x04] := by decide

theorem test_witness_LaterBytesDoNotChangeAStep :
    step (sending [0x09]) = .next (((sending [0x09]).fetched .rdst []).respond .ok [0x00]) := rfl

theorem test_witness_StepConsumesCommandsAndOnlyAppendsResponses : ∃ t, step (sending [0x0A]) = .next t ∧ t.halted = true :=
  ⟨(sending [0x0A]).illegalCommand [], rfl, rfl⟩

theorem test_witness_DeriveStoresTheScheduleOrRejectsTheLength : (zeros 8).length = 8 ∧
    ∀ n ∈ [0, 7, 9, 255], (zeros n).length ≠ 8 := by simp only [zeros_length]; decide

theorem test_witness_of_a_schedule_and_of_none : (∃ K, (keyed keyK1 []).ks = some K) ∧ State.reset.ks = none := ⟨⟨_, rfl⟩, rfl⟩

theorem test_witness_RdksAnswersTheSubkeysInOrder : (∃ K, (keyed keyK1 []).ks = some K) ∧ State.reset.ks = none ∧
    (1 ≤ 1 ∧ 1 ≤ 16) ∧ (1 ≤ 16 ∧ 16 ≤ 16) := ⟨⟨_, rfl⟩, rfl, by decide, by decide⟩

theorem test_witness_EncbAnswersTheEncryptedBlock : (∃ K, (keyed keyK1 []).ks = some K) ∧ State.reset.ks = none :=
  test_witness_of_a_schedule_and_of_none

theorem test_witness_DecbAnswersTheDecryptedBlock : (∃ K, (keyed keyK1 []).ks = some K) ∧ State.reset.ks = none :=
  test_witness_of_a_schedule_and_of_none

theorem test_witness_EncsAnswersTheEncryptedStream : (∃ K, (keyed keyK1 []).ks = some K) ∧ State.reset.ks = none :=
  test_witness_of_a_schedule_and_of_none

theorem test_witness_DecsAnswersTheDecryptedFullBlocks : (∃ K, (keyed keyK1 []).ks = some K) ∧
    (zeros 0).length % 8 = 0 ∧ (zeros 16).length % 8 = 0 ∧ (zeros 1).length % 8 ≠ 0 ∧ (zeros 15).length % 8 ≠ 0 ∧
    State.reset.ks = none := ⟨⟨_, rfl⟩, by decide, by decide, by decide, by decide, rfl⟩

theorem test_witness_ReadersOfTheScheduleRefuseWithoutOne : readsSchedule .rdks = true ∧ (sending [0x02, 0x09]).ksValid = false ∧
    (sending [0x02, 0x09]).halted = false ∧ Instr.rdks.wellFormed = true ∧
    (sending [0x02, 0x09]).cmd = encode .rdks ++ [0x09] := by decide

theorem test_witness_ErrorsHaveTheFixedPriority : ((0x0A : Byte).toNat = 0 ∨ 0x0A ≤ (0x0A : Byte).toNat) ∧ (zeros 9).length ≠ 8 ∧
    (readsSchedule (.decs (zeros 13)) = true ∧ State.reset.ksValid = false) ∧
    ((keyed keyK1 []).ksValid = true ∧ (zeros 13).length % 8 ≠ 0) := by decide

theorem test_witness_OnlyRstClearsASetStickyBit : Instr.rdst ≠ .rst ∧
    ({ State.reset with eKeylen := true, eNosched := true } : State).eKeylen = true ∧
    ({ State.reset with eKeylen := true, eNosched := true } : State).eNosched = true ∧
    ({ keyed keyK1 [] with wTrunc := true } : State).wTrunc = true := by decide

theorem test_witness_WorkingRegistersCarryNothingBetweenCommands :
    SameButWorking (sending [0x09]) { sending [0x09] with work := { Working.reset with c := 1, opc := 0xFF } } := rfl

theorem keyed_inv (key : Block) (bs : List Byte) : (keyed key bs).Inv where
  derived := by
    intro K h
    exact ⟨key, (Option.some.inj h).symm⟩
  truncated := fun h => Bool.noConfusion h

theorem test_witness_EveryStepKeepsTheInvariant : (keyed keyK1 [0x07, 0, 0, 0, 1, 0xAB]).Inv ∧
    ∃ t, step (keyed keyK1 [0x07, 0, 0, 0, 1, 0xAB]) = .next t ∧ t.wTrunc = true := ⟨keyed_inv _ _, _, rfl, rfl⟩

theorem test_witness_HostInputsKeepTheInvariant : (keyed keyK1 [0x09]).Inv := keyed_inv _ _

theorem test_witness_RdstNeverAnswersTruncationWithoutASchedule :
    ({ keyed keyK1 [0x09] with eKeylen := true, eNosched := true, wTrunc := true } : State).Inv where
  derived := (keyed_inv keyK1 [0x09]).derived
  truncated := fun _ => rfl

theorem test_witness_FirstByteIsMostSignificant : (0 < (zeros 8).length ∧ 7 < (zeros 8).length) ∧ (1 ≤ 1 ∧ 1 ≤ 8 ∧ 8 ≤ 8) ∧
    (zeros 8).length = 8 ∧ (zeros 6).length = 6 ∧ (zeros 4).length = 4 := by decide

theorem test_witness_PermutePicksTheTablesBits : tableE.length = 48 ∧ (∀ x ∈ tableE, 1 ≤ x ∧ x ≤ 32) ∧ (1 ≤ 1 ∧ 1 ≤ 48) ∧
    (1 ≤ 48 ∧ 48 ≤ 48) := by decide

theorem test_witness_SboxLookupTakesOuterRowAndInnerColumn : 0 < 8 ∧ 7 < 8 := by decide

theorem test_witness_of_the_rounds : (1 ≤ 1 ∧ 1 ≤ 16) ∧ (1 ≤ 16 ∧ 16 ≤ 16) := by decide

theorem test_witness_RotationAmountOfEachRound : (1 ≤ 1 ∧ 1 ≤ 16) ∧ (1 ≤ 16 ∧ 16 ≤ 16) := test_witness_of_the_rounds

theorem test_witness_SubkeysComeFromAccumulatedRotations : (1 ≤ 1 ∧ 1 ≤ 16) ∧ (1 ≤ 16 ∧ 16 ≤ 16) := test_witness_of_the_rounds

theorem test_witness_DeriveScheduleAcceptsEightBytesOnly : (zeros 8).length = 8 ∧ ∀ n ∈ [0, 7, 9], (zeros n).length ≠ 8 := by
  decide

theorem test_witness_SchedulesAgreeExactlyOnTheFiftySixBits : ∀ j, 1 ≤ j → j ≤ 64 → j % 8 ≠ 0 →
    bitM (0x0123456789ABCDEF : Block) j = bitM (0x0022446688AACCEE : Block) j := by
  intro j h1 h2 h3; interval_cases j <;> first | rfl | exact absurd rfl h3

theorem test_witness_RotationsReturnTheHalvesAfterSixteenRounds : (1 ≤ 1 ∧ 1 ≤ 16) ∧ (1 ≤ 16 ∧ 16 ≤ 16) := test_witness_of_the_rounds

theorem test_witness_RoundFunctionSubstitutesGroupByGroup : 0 < 8 ∧ 7 < 8 := by decide

theorem test_witness_BlockCipherIsSixteenFeistelRounds : (1 ≤ 1 ∧ 1 ≤ 16) ∧ (1 ≤ 16 ∧ 16 ≤ 16) := test_witness_of_the_rounds

/-- Vector W1: a key whose sixteen subkeys are equal. -/
theorem test_witness_EqualSubkeysMakeBothDirectionsOne : ∀ i, 1 ≤ i → i ≤ 16 → ∀ j, 1 ≤ j → j ≤ 16 →
    scheduleKey (Vector.replicate 16 0) i = scheduleKey (Vector.replicate 16 0) j := by
  intro i h1 h2 j h3 h4; interval_cases i <;> interval_cases j <;> rfl

theorem test_witness_DecbOfTheEncbAnswerGivesTheBlockBack : ∃ K, (keyed keyK1 []).ks = some K := ⟨_, rfl⟩

theorem test_witness_EachOutputBlockDependsOnItsOwnGroup : (0 < ((zeros 9).length + 7) / 8 ∧ 1 < ((zeros 9).length + 7) / 8) ∧
    0 < (zeros 9).length / 8 := by decide

theorem test_witness_PaddingZerosCannotBeToldApart : (zeros 5).length % 8 ≠ 0 ∧ 0 ≤ 8 - (zeros 5).length % 8 ∧
    3 ≤ 8 - (zeros 5).length % 8 := by decide

theorem test_witness_StreamsSplitAtGroupBoundaries : (zeros 0).length % 8 = 0 ∧ (zeros 16).length % 8 = 0 := by decide

theorem test_witness_EightByteStreamsAreBlockCommands : (zeros 8).length = 8 := by decide

theorem test_witness_EveryBlockIsOwnedByExactlyOneLane : (1 ≤ 1 ∧ 0 < 3) ∧ (1 ≤ 4 ∧ 2 < 3) := by decide

theorem test_witness_PayloadIsTheSameForAllLanesAndOrders : 1 ≤ 2 ∧
    ([2, 0, 1] : List Nat).Perm (allLaneIndices 2 (chunk (zeros 17)).length) ∧
    (zeros 24).length = 8 * (chunk (zeros 17)).length ∧
    ([1, 0] : List Nat).Perm (allLaneIndices 2 (deserialise (zeros 17)).1.length) ∧
    (zeros 16).length = 8 * (deserialise (zeros 17)).1.length := by decide

end Sys2Proof.Tests
end

section
/-! The invariant of reachable states: what it depends on, and that the host's inputs keep it (spec/00_scope.md R14,
spec/10_state.md R21). -/

namespace Sys2Proof.Machine

/-! `State.hostReceive` -/

@[simp] theorem State.hostReceive_ks (s : State) (n : Nat) : (s.hostReceive n).2.ks = s.ks := rfl

@[simp] theorem State.hostReceive_wTrunc (s : State) (n : Nat) : (s.hostReceive n).2.wTrunc = s.wTrunc := rfl

/-! `State.Inv` -/

/-- The invariant depends on `KS` and `W_TRUNC` only. -/
theorem State.Inv.congr {s t : State} (hs : s.Inv) (hks : t.ks = s.ks) (hwTrunc : t.wTrunc = s.wTrunc) : t.Inv where
  derived := by rw [hks]; exact hs.derived
  truncated := by rw [hwTrunc, State.ksValid, hks]; exact hs.truncated

/-- Cleared registers (R30, R230) meet the invariant, whatever the other fields hold. -/
theorem State.inv_of_cleared {s : State} (hks : s.ks = none) (hwTrunc : s.wTrunc = false) : s.Inv where
  derived := by simp [hks]
  truncated := by simp [hwTrunc]

theorem State.Inv.hostSend {s : State} (hs : s.Inv) (sent : List Byte) : (s.hostSend sent).Inv :=
  hs.congr (s.hostSend_ks sent) (s.hostSend_wTrunc sent)

theorem State.Inv.hostReceive {s : State} (hs : s.Inv) (n : Nat) : (s.hostReceive n).2.Inv :=
  hs.congr (s.hostReceive_ks n) (s.hostReceive_wTrunc n)

theorem State.hardwareReset_inv (s : State) : s.hardwareReset.Inv :=
  State.inv_of_cleared s.hardwareReset_ks s.hardwareReset_wTrunc

/-- Settles O31: the channels are not among what the invariant depends on, and the hardware reset leaves `KS` without a
schedule and `W_TRUNC` clear. -/
theorem hostInputsKeepTheInvariant : Obligations.HostInputsKeepTheInvariant := fun s sent n hs =>
  ⟨hs.hostSend sent, hs.hostReceive n, s.hardwareReset_inv⟩

end Sys2Proof.Machine
end

section
/-! `KS` and `STATUS` from one command to the next (spec/10_state.md R20 to R22, R30): what `STATUS` is made of, which
commands change the registers, and the invariant along the steps. -/

namespace Sys2Proof.Machine

/-! `STATUS` -/

/-- The four flags at bits 0 to 3 of the byte that `State.status` computes from them. -/
theorem flags_at_bits : ∀ a b c d : Bool,
    let v : Byte := BitVec.ofNat 8 (a.toNat + 2 * b.toNat + 4 * c.toNat + 8 * d.toNat)
    v.getLsbD 0 = a ∧ v.getLsbD 1 = b ∧ v.getLsbD 2 = c ∧ v.getLsbD 3 = d ∧ v.extractLsb' 4 4 = 0 := by decide

/-- Settles O21: `STATUS` is the sum of its four flags at their weights. -/
theorem statusBitsStandWhereTheSpecPutsThem : Obligations.StatusBitsStandWhereTheSpecPutsThem := fun s =>
  flags_at_bits s.ksValid s.eKeylen s.eNosched s.wTrunc

/-- `KS_VALID` depends on `KS` only (R21). -/
theorem State.ksValid_congr {s t : State} (hks : t.ks = s.ks) : t.ksValid = s.ksValid := by
  rw [State.ksValid, State.ksValid, hks]

/-- Cleared registers read as `STATUS` 00 (R30). -/
theorem State.status_of_cleared {s : State} (hks : s.ks = none) (hKeylen : s.eKeylen = false)
    (hNosched : s.eNosched = false) (hTrunc : s.wTrunc = false) : s.status = 0x00 := by
  simp [State.status, State.ksValid_none s hks, hKeylen, hNosched, hTrunc]

/-- Settles O28: each of the three ways to a reset clears `KS` and the sticky bits. -/
theorem resetLeavesNoScheduleAndClearStatus : Obligations.ResetLeavesNoScheduleAndClearStatus := by
  refine ⟨⟨rfl, rfl, State.status_of_cleared rfl rfl rfl rfl, rfl, rfl, rfl⟩, fun s => ?_, fun s => ?_⟩
  · exact ⟨rfl, rfl, State.status_of_cleared rfl rfl rfl rfl, rfl, rfl, rfl⟩
  · exact ⟨_, exec_rst s, rfl, rfl, State.status_of_cleared rfl rfl rfl rfl, rfl, rfl, rfl⟩

/-! What a command does to the registers -/

/-- No command but `RST` clears a sticky bit (R22). -/
theorem perform_keeps_sticky (i : Instr) (s : State) (hi : i ≠ .rst) :
    (s.eKeylen = true → (s.perform i).eKeylen = true) ∧ (s.eNosched = true → (s.perform i).eNosched = true) ∧
      (s.wTrunc = true → (s.perform i).wTrunc = true) := by
  obtain ⟨e, h⟩ | ⟨p, -, -, h⟩ | ⟨p, K, -, -, h⟩ | ⟨key, -, -, h⟩ | ⟨rfl, -⟩ := exec_cases i s
  · rw [perform_of_next h]
    exact ⟨fun hset => by simp [hset], fun hset => by simp [hset], fun hset => by simp [hset]⟩
  · rw [perform_of_next h]
    exact ⟨id, id, id⟩
  · rw [perform_of_next h]
    exact ⟨id, id, fun _ => rfl⟩
  · rw [perform_of_next h]
    exact ⟨id, id, id⟩
  · exact absurd rfl hi

/-- Settles O25: an error and the warning set their bit, every other response keeps all three. -/
theorem onlyRstClearsASetStickyBit : Obligations.OnlyRstClearsASetStickyBit := fun i s hi =>
  ⟨s.perform i, exec_eq_perform i s, perform_keeps_sticky i s hi⟩

/-- What a command leaves in `KS`: what stood there, the whole schedule of a key, or nothing (R20). -/
theorem perform_ks_cases (i : Instr) (s : State) :
    (s.perform i).ks = s.ks ∨
      (∃ key, i = .derive key ∧ key.length = 8 ∧ (s.perform i).ks = some (scheduleOf (be 64 key))) ∨
      (i = .rst ∧ (s.perform i).ks = none) := by
  obtain ⟨e, h⟩ | ⟨p, -, -, h⟩ | ⟨p, K, -, -, h⟩ | ⟨key, hi, hlen, h⟩ | ⟨hi, h⟩ := exec_cases i s <;>
    rw [perform_of_next h]
  · exact .inl (s.raiseError_ks e)
  · exact .inl rfl
  · exact .inl rfl
  · exact .inr (.inl ⟨key, hi, hlen, rfl⟩)
  · exact .inr (.inr ⟨hi, rfl⟩)

/-- Settles O26: `KS_VALID` follows `KS`. -/
theorem onlyDeriveAndRstChangeTheSchedule : Obligations.OnlyDeriveAndRstChangeTheSchedule := by
  intro i s
  refine ⟨s.perform i, exec_eq_perform i s, ?_⟩
  obtain hks | ⟨key, hi, hlen, hks⟩ | ⟨hi, hks⟩ := perform_ks_cases i s
  · exact .inl ⟨hks, State.ksValid_congr hks⟩
  · exact .inr (.inl ⟨key, hi, hlen, hks, State.ksValid_some _ _ hks⟩)
  · exact .inr (.inr ⟨hi, hks, State.ksValid_none _ hks⟩)

/-! The invariant along the steps -/

/-- Settles O29: at reset `KS` has no schedule and `W_TRUNC` is clear. -/
theorem invariantHoldsAtReset : Obligations.InvariantHoldsAtReset := State.inv_of_cleared rfl rfl

/-- A state whose schedule some key derives meets the invariant, whatever `W_TRUNC` is. -/
theorem State.inv_of_derived {s : State} {key : Block} (hks : s.ks = some (scheduleOf key)) : s.Inv where
  derived _ hK := ⟨key, Option.some.inj (hK.symm.trans hks)⟩
  truncated _ := s.ksValid_some _ hks

/-- The one command that sets `W_TRUNC` has read a schedule, which was a derived one before. -/
theorem State.Inv.warnTruncated {s : State} (hs : s.Inv) {K : Schedule} (hks : s.ks = some K) (payload : List Byte) :
    (s.warnTruncated payload).Inv := by
  obtain ⟨key, rfl⟩ := hs.derived K hks
  exact State.inv_of_derived ((s.warnTruncated_ks payload).trans hks)

theorem State.Inv.perform {s : State} (hs : s.Inv) (i : Instr) : (s.perform i).Inv := by
  obtain ⟨e, h⟩ | ⟨p, -, -, h⟩ | ⟨p, K, hks, -, h⟩ | ⟨key, -, -, h⟩ | ⟨-, h⟩ := exec_cases i s <;>
    rw [perform_of_next h]
  · exact hs.congr (s.raiseError_ks e) (s.raiseError_wTrunc e)
  · exact hs.congr (s.respond_ks .ok p) (s.respond_wTrunc .ok p)
  · exact hs.warnTruncated hks p
  · exact State.inv_of_derived rfl
  · exact State.inv_of_cleared rfl rfl

/-- Settles O30: neither the fetch nor an illegal opcode touches `KS` or `W_TRUNC`, and every command keeps the
invariant. -/
theorem everyStepKeepsTheInvariant : Obligations.EveryStepKeepsTheInvariant := by
  intro s t hs hstep
  obtain ⟨-, ⟨i, rest, -, rfl⟩ | ⟨op, rest, -, rfl⟩⟩ := step_cases s t hstep
  · have hfetched : (s.fetched i rest).Inv := hs.congr (s.fetched_ks i rest) (s.fetched_wTrunc i rest)
    exact hfetched.perform i
  · exact hs.congr (s.illegalCommand_ks rest) (s.illegalCommand_wTrunc rest)

end Sys2Proof.Machine
end

section
/-! States that differ in the working registers only (spec/10_state.md R25, U2): every operation that ends a command
takes them to one state, and no command reads a working register before it writes it. -/

namespace Sys2Proof.Machine

theorem sameButWorking_iff {s t : State} : SameButWorking s t ↔ ∃ w, t = { s with work := w } :=
  ⟨fun h => ⟨t.work, h⟩, fun ⟨_, h⟩ => by subst h; rfl⟩

namespace SameButWorking

variable {s t : State}

/-! The fields the two states share -/

theorem ks (h : SameButWorking s t) : t.ks = s.ks := by
  obtain ⟨w, rfl⟩ := sameButWorking_iff.mp h
  rfl

theorem halted (h : SameButWorking s t) : t.halted = s.halted := by
  obtain ⟨w, rfl⟩ := sameButWorking_iff.mp h
  rfl

theorem cmd (h : SameButWorking s t) : t.cmd = s.cmd := by
  obtain ⟨w, rfl⟩ := sameButWorking_iff.mp h
  rfl

theorem status (h : SameButWorking s t) : t.status = s.status := by
  obtain ⟨w, rfl⟩ := sameButWorking_iff.mp h
  rfl

/-! Operations that keep the difference to the working registers -/

theorem fetched (h : SameButWorking s t) (i : Instr) (rest : List Byte) :
    SameButWorking (s.fetched i rest) (t.fetched i rest) := by
  obtain ⟨w, rfl⟩ := sameButWorking_iff.mp h
  rfl

theorem setKs (h : SameButWorking s t) (k : Option Schedule) :
    SameButWorking { s with ks := k } { t with ks := k } := by
  obtain ⟨w, rfl⟩ := sameButWorking_iff.mp h
  rfl

theorem clearRegisters (h : SameButWorking s t) : SameButWorking s.clearRegisters t.clearRegisters := by
  obtain ⟨w, rfl⟩ := sameButWorking_iff.mp h
  rfl

/-! Operations that end a command, and with it the difference -/

theorem respond_eq (h : SameButWorking s t) (st : StatusCode) (payload : List Byte) :
    t.respond st payload = s.respond st payload := by
  obtain ⟨w, rfl⟩ := sameButWorking_iff.mp h
  rfl

theorem raiseError_eq (h : SameButWorking s t) (e : ErrorKind) : t.raiseError e = s.raiseError e := by
  obtain ⟨w, rfl⟩ := sameButWorking_iff.mp h
  cases e <;> rfl

theorem warnTruncated_eq (h : SameButWorking s t) (payload : List Byte) :
    t.warnTruncated payload = s.warnTruncated payload := by
  obtain ⟨w, rfl⟩ := sameButWorking_iff.mp h
  rfl

theorem illegalCommand_eq (h : SameButWorking s t) (rest : List Byte) :
    t.illegalCommand rest = s.illegalCommand rest := by
  obtain ⟨w, rfl⟩ := sameButWorking_iff.mp h
  rfl

theorem withSchedule_eq (h : SameButWorking s t) {run run' : Schedule → State} (hrun : ∀ K, run' K = run K) :
    t.withSchedule run' = s.withSchedule run := by
  obtain ⟨hk, hs⟩ | ⟨K, hk, hs⟩ := s.withSchedule_cases run
  · rw [hs, t.withSchedule_none run' (h.ks.trans hk), h.raiseError_eq]
  · rw [hs, t.withSchedule_some run' K (h.ks.trans hk), hrun]

/-! Commands and steps -/

theorem exec_derive_eq (h : SameButWorking s t) (key : List Byte) : exec (.derive key) t = exec (.derive key) s := by
  by_cases hlen : key.length = 8
  · rw [exec_derive_ok key t hlen, exec_derive_ok key s hlen, (h.setKs _).respond_eq]
  · rw [exec_derive_error key t hlen, exec_derive_error key s hlen, h.raiseError_eq]

/-- No command's next state depends on what a working register held: the loops of R145 and R186 compute the pure
functions from any working registers. -/
theorem exec_eq (h : SameButWorking s t) (i : Instr) : exec i t = exec i s := by
  cases i with
  | derive key => exact h.exec_derive_eq key
  | rdks => exact congrArg Host.Outcome.next (h.withSchedule_eq fun K => h.respond_eq _ _)
  | rndf half subkey => rw [exec_rndf, exec_rndf, h.respond_eq]
  | encb block =>
    exact congrArg Host.Outcome.next (h.withSchedule_eq fun K => by simp only [feistelOn_block, h.respond_eq])
  | decb block =>
    exact congrArg Host.Outcome.next (h.withSchedule_eq fun K => by simp only [feistelOn_block, h.respond_eq])
  | encs data =>
    exact congrArg Host.Outcome.next (h.withSchedule_eq fun K => by simp only [processOn_eq, h.respond_eq])
  | decs data =>
    exact congrArg Host.Outcome.next
      (h.withSchedule_eq fun K => by simp only [processOn_eq, h.respond_eq, h.warnTruncated_eq])
  | rst => rw [exec_rst, exec_rst, h.clearRegisters.respond_eq]
  | rdst => rw [exec_rdst, exec_rdst, h.status, h.respond_eq]

theorem step_eq (h : SameButWorking s t) : step t = step s := by
  cases hs : s.halted with
  | true => rw [step_halted t (h.halted.trans hs), step_halted s hs]
  | false =>
    have ht : t.halted = false := h.halted.trans hs
    have hdecode : decode t.cmd = decode s.cmd := congrArg decode h.cmd
    cases hd : decode s.cmd with
    | packet i rest =>
      rw [step_packet t i rest ht (hdecode.trans hd), step_packet s i rest hs hd, (h.fetched i rest).exec_eq]
    | illegalOpcode op rest =>
      rw [step_illegalOpcode t op rest ht (hdecode.trans hd), step_illegalOpcode s op rest hs hd, h.illegalCommand_eq]
    | incompletePacket => rw [step_incompletePacket t ht (hdecode.trans hd), step_incompletePacket s hs hd]
    | noPacket => rw [step_noPacket t ht (hdecode.trans hd), step_noPacket s hs hd]

end SameButWorking

/-- Settles O27: the two states decode one command, and it ends in one next state. -/
theorem workingRegistersCarryNothingBetweenCommands : Obligations.WorkingRegistersCarryNothingBetweenCommands :=
  fun _ _ h => h.step_eq

end Sys2Proof.Machine
end

section
/-! The bytes of fields, operands and payloads (spec/20_memory.md R51 to R57): a field's bits byte by byte, a byte
string told by its groups, and which group a block of a stream's payload comes from. -/

namespace Sys2Proof

/-- Bit `8j + i` of a field, counted from the left, is bit `i` of its byte `j` (R53, R54). -/
theorem bitM_be (s : List Byte) (j i : Nat) (hj : j < s.length) (h1 : 1 ≤ i) (h8 : i ≤ 8) :
    bitM (be (8 * s.length) s) (8 * j + i) = bitM (s.getD j 0) i := by
  have hlt : 8 * s.length - (8 * j + i) < 8 * s.length := by omega
  have hdiv : (8 * s.length - (8 * j + i)) / 8 = s.length - 1 - j := by omega
  have hmod : (8 * s.length - (8 * j + i)) % 8 = 8 - i := by omega
  have hrev : s.reverse.getD (s.length - 1 - j) 0 = s.getD j 0 := by
    rw [List.getD_eq_getElem _ _ (by simp; omega), List.getD_eq_getElem _ _ hj, List.getElem_reverse]
    congr 1
    omega
  rw [bitM, bitM, be_getLsbD, hdiv, hmod, hrev]
  simp [hlt]

/-- Settles O33: the bits of a field byte by byte, and `be` and `bytes` undo each other at every width of whole
bytes. -/
theorem firstByteIsMostSignificant : Obligations.FirstByteIsMostSignificant := by
  refine ⟨bitM_be, fun v => be_bytes v rfl, fun v => be_bytes v rfl, fun v => be_bytes v rfl, ?_, ?_, ?_⟩
  · exact fun s hs => bytes_be 64 s (by rw [hs])
  · exact fun s hs => bytes_be 48 s (by rw [hs])
  · exact fun s hs => bytes_be 32 s (by rw [hs])

/-- A read that runs into zeros after an operand is the operand's part extended with zeros. -/
theorem memRead_append_zeros (s : List Byte) (a n k : Nat) (ha : a ≤ s.length) (hn : a + n ≤ s.length + k) :
    memRead (s ++ zeros k) a n = memRead s a n ++ zeros (n - (s.length - a)) := by
  rw [memRead, memRead, List.drop_append_of_le_length ha, List.take_append, List.length_drop, zeros,
    List.take_replicate, zeros, Nat.min_eq_left (by omega)]

/-- A byte string of whole groups is told by its groups. -/
theorem eq_of_memRead_groups_eq (n : Nat) {u v : List Byte} (hu : u.length = 8 * n) (hv : v.length = 8 * n)
    (h : ∀ j, j < n → memRead u (8 * j) 8 = memRead v (8 * j) 8) : u = v := by
  apply List.ext_getElem?
  intro p
  by_cases hp : p < 8 * n
  · have hgroup := congrArg (·[p % 8]?) (h (p / 8) (by omega))
    have hlt : p % 8 < 8 := Nat.mod_lt _ (by omega)
    simpa [memRead, List.getElem?_take, hlt, Nat.div_add_mod] using hgroup
  · rw [List.getElem?_eq_none (by omega), List.getElem?_eq_none (by omega)]

namespace Machine

/-- Bytes `8j` to `8j + 7` of the output are those of block `j` (R203). -/
theorem memRead_unchunk (blocks : List Block) (j : Nat) (hj : j < blocks.length) :
    memRead (unchunk blocks) (8 * j) 8 = bytes blocks[j] := by
  induction blocks generalizing j with
  | nil => simp at hj
  | cons b blocks ih =>
    have hcons : unchunk (b :: blocks) = bytes b ++ unchunk blocks := rfl
    have hb : (bytes b).length = 8 := bytes_length b
    cases j with
    | zero => rw [hcons, memRead_append_left _ _ _ _ (by omega), memRead_all _ _ hb, List.getElem_cons_zero]
    | succ j =>
      rw [hcons, show 8 * (j + 1) = (bytes b).length + 8 * j by omega, memRead_append_right,
        ih j (by simpa using hj), List.getElem_cons_succ]

/-- Block `j` of a processed sequence is the cipher of block `j` alone (R202). -/
theorem memRead_unchunk_process (blocks : List Block) (K : Schedule) (dir : Direction) (j : Nat)
    (hj : j < blocks.length) :
    memRead (unchunk (process blocks K dir)) (8 * j) 8 = bytes (feistel blocks[j] K dir) := by
  rw [memRead_unchunk _ j (by rwa [process_length])]
  simp [process]

/-- Block `j` to encrypt is group `j`, zero-extended where it is short (R200). -/
theorem chunk_getElem (s : List Byte) (j : Nat) (hj : j < (chunk s).length) :
    (chunk s)[j] = be 64 (memRead s (8 * j) 8 ++ zeros (8 - (s.length - 8 * j))) := by
  have hnb : j < (s.length + 7) / 8 := by simpa using hj
  rw [← memRead_append_zeros s (8 * j) 8 (8 * ((s.length + 7) / 8) - s.length) (by omega) (by omega)]
  simp [chunk, group, Config.blockBytes]

/-- Block `j` to decrypt is group `j` (R201). -/
theorem deserialise_getElem (s : List Byte) (j : Nat) (hj : j < (deserialise s).1.length) :
    (deserialise s).1[j] = be 64 (memRead s (8 * j) 8) := by
  simp [deserialise, group, Config.blockBytes]

/-- Settles O50: each block is cut from its own group and processed alone. -/
theorem eachOutputBlockDependsOnItsOwnGroup : Obligations.EachOutputBlockDependsOnItsOwnGroup := by
  intro s K
  constructor
  · intro j hj
    have hlt : j < (chunk s).length := by rwa [chunk_length]
    rw [encryptStream, memRead_unchunk_process _ K .enc j hlt, chunk_getElem s j hlt, encryptBlock]
  · intro j hj
    have hlt : j < (deserialise s).1.length := by rwa [deserialise_length]
    rw [decryptStream, memRead_unchunk_process _ K .dec j hlt, deserialise_getElem s j hlt, decryptBlock]

end Machine

end Sys2Proof
end

section
/-! Lanes (spec/20_memory.md R65 to R67): the lanes' ranges follow one another without a gap, and a payload whose
blocks have all been written does not tell the order of the writes. -/

namespace Sys2Proof.Machine

theorem mem_laneIndices {lanes nb w j : Nat} :
    j ∈ laneIndices lanes nb w ↔ (laneRange lanes nb w).1 ≤ j ∧ j < (laneRange lanes nb w).2 := by
  rw [laneIndices, List.mem_range'_1]
  omega

/-- A lane that is not the last owns as many blocks as every other such lane. -/
theorem laneIndices_of_lt {lanes nb w : Nat} (h : w + 1 < lanes) :
    laneIndices lanes nb w = List.range' (w * (nb / lanes)) (nb / lanes) := by
  simp [laneIndices, laneRange, h.ne, Nat.succ_mul]

/-- The last lane owns all that is left. -/
theorem laneIndices_last (w nb : Nat) :
    laneIndices (w + 1) nb w = List.range' (w * (nb / (w + 1))) (nb - w * (nb / (w + 1))) := by
  simp [laneIndices, laneRange]

theorem range_append_range' (a b : Nat) : List.range a ++ List.range' a b = List.range (a + b) := by
  rw [List.range_add, List.range'_eq_map_range]

/-- The lanes before the last one own the blocks from 0 on without a gap. -/
theorem flatMap_laneIndices_of_lt (lanes nb k : Nat) (h : k < lanes) :
    (List.range k).flatMap (laneIndices lanes nb) = List.range (k * (nb / lanes)) := by
  induction k with
  | zero => simp
  | succ k ih =>
    rw [List.range_succ, List.flatMap_append, ih (by omega), List.flatMap_singleton, laneIndices_of_lt h,
      range_append_range', Nat.succ_mul]

/-- The lanes own the blocks in order: lane 0 the first ones, the last lane those up to the end (R65). -/
theorem allLaneIndices_eq_range (lanes nb : Nat) (h : 1 ≤ lanes) : allLaneIndices lanes nb = List.range nb := by
  obtain ⟨k, rfl⟩ : ∃ k, lanes = k + 1 := ⟨lanes - 1, by omega⟩
  have hle : k * (nb / (k + 1)) ≤ nb :=
    (Nat.mul_le_mul_right _ (Nat.le_succ k)).trans (Nat.mul_div_le nb (k + 1))
  rw [allLaneIndices, List.range_succ, List.flatMap_append, flatMap_laneIndices_of_lt _ _ _ (Nat.lt_succ_self k),
    List.flatMap_singleton, laneIndices_last, range_append_range', Nat.add_sub_cancel' hle]

/-- Settles O55: the lanes' indices, one lane after another, are the block indices without a repetition. -/
theorem everyBlockIsOwnedByExactlyOneLane : Obligations.EveryBlockIsOwnedByExactlyOneLane := by
  intro lanes nb j hlanes hj
  have hall : (List.range lanes).flatMap (laneIndices lanes nb) = List.range nb :=
    allLaneIndices_eq_range lanes nb hlanes
  obtain ⟨w, hw, hjw⟩ := List.mem_flatMap.mp (hall ▸ List.mem_range.mpr hj)
  refine ⟨w, ⟨List.mem_range.mp hw, mem_laneIndices.mp hjw⟩, fun w' ⟨hw', hjw'⟩ => ?_⟩
  have hdisjoint := (List.nodup_flatMap.mp (hall ▸ List.nodup_range)).2
  have hsymm : Std.Symm (Function.onFun List.Disjoint (laneIndices lanes nb)) := ⟨fun _ _ h => h.symm⟩
  by_contra hne
  exact hdisjoint.forall (List.mem_range.mpr hw') hw hne (mem_laneIndices.mpr hjw') hjw

/-- The payload keeps its length while blocks are written into it. -/
theorem writeBlocks_length (blocks : List Block) (K : Schedule) (dir : Direction) (order : List Nat)
    (out : List Byte) (h : ∀ k ∈ order, 8 * k + 8 ≤ out.length) :
    (writeBlocks blocks K dir order out).length = out.length := by
  induction order generalizing out with
  | nil => rfl
  | cons k order ih =>
    have hk : (writeBlock blocks K dir out k).length = out.length :=
      memWrite_length _ _ _ (by simpa using h k (by simp))
    calc (writeBlocks blocks K dir (k :: order) out).length
        = (writeBlock blocks K dir out k).length := ih _ fun k' hk' => by rw [hk]; exact h k' (by simp [hk'])
      _ = out.length := hk

/-- A block that has been written, once or more often, stands in the payload, whatever is written around it. -/
theorem memRead_writeBlocks (blocks : List Block) (K : Schedule) (dir : Direction) (order : List Nat)
    (out : List Byte) (h : ∀ k ∈ order, 8 * k + 8 ≤ out.length) (j : Nat) (hj : j ∈ order) :
    memRead (writeBlocks blocks K dir order out) (8 * j) 8 = bytes (feistel (blocks.getD j 0) K dir) := by
  induction order using List.reverseRecOn with
  | nil => simp at hj
  | append_singleton order k ih =>
    have hbefore : ∀ k' ∈ order, 8 * k' + 8 ≤ out.length := fun k' hk' => h k' (by simp [hk'])
    have hk : 8 * k + (bytes (feistel (blocks.getD k 0) K dir)).length ≤
        (writeBlocks blocks K dir order out).length := by
      rw [writeBlocks_length _ _ _ _ _ hbefore, bytes_length]
      exact h k (by simp)
    have hlast : writeBlocks blocks K dir (order ++ [k]) out =
        memWrite (writeBlocks blocks K dir order out) (8 * k) (bytes (feistel (blocks.getD k 0) K dir)) := by
      simp [writeBlocks, writeBlock]
    rw [hlast]
    by_cases hjk : j = k
    · subst hjk
      simpa only [bytes_length] using memRead_memWrite_same _ _ _ hk
    · rw [memRead_memWrite_apart _ _ _ _ _ hk (by rw [bytes_length]; omega)]
      exact ih hbefore (by simpa [hjk] using hj)

/-- Every order that writes each block of the payload at least once gives the processed sequence (R66, R67). -/
theorem writeBlocks_eq_unchunk_process (blocks : List Block) (K : Schedule) (dir : Direction) (order : List Nat)
    (out : List Byte) (horder : ∀ k, k ∈ order ↔ k < blocks.length) (hout : out.length = 8 * blocks.length) :
    writeBlocks blocks K dir order out = unchunk (process blocks K dir) := by
  have hfits : ∀ k ∈ order, 8 * k + 8 ≤ out.length := fun k hk => by
    have := (horder k).mp hk
    omega
  apply eq_of_memRead_groups_eq blocks.length
  · rw [writeBlocks_length _ _ _ _ _ hfits, hout]
  · rw [unchunk_length, process_length]
  · intro j hj
    rw [memRead_writeBlocks _ _ _ _ _ hfits j ((horder j).mpr hj), memRead_unchunk_process _ _ _ j hj,
      List.getD_eq_getElem _ _ hj]

/-- In any order of the lanes' work every block index occurs, and nothing else. -/
theorem mem_order_iff {lanes nb : Nat} (hlanes : 1 ≤ lanes) {order : List Nat}
    (h : order.Perm (allLaneIndices lanes nb)) (k : Nat) : k ∈ order ↔ k < nb := by
  rw [h.mem_iff, allLaneIndices_eq_range lanes nb hlanes, List.mem_range]

/-- Settles O56: the order writes each block, and the last write of a block stands. -/
theorem payloadIsTheSameForAllLanesAndOrders : Obligations.PayloadIsTheSameForAllLanesAndOrders := by
  intro s K lanes hlanes
  constructor
  · exact fun order out horder hout =>
      writeBlocks_eq_unchunk_process _ K .enc order out (mem_order_iff hlanes horder) hout
  · exact fun order out horder hout =>
      writeBlocks_eq_unchunk_process _ K .dec order out (mem_order_iff hlanes horder) hout

end Sys2Proof.Machine
end

section
/-! Packets and the decoder (spec/30_encoding.md R80 to R87, R91): a command's packet decodes to that command, and what
the decoder has answered tells which bytes it has read. -/

namespace Sys2Proof

/-! From the packet to the command -/

/-- The data bytes of `ENCB` and `DECB` (R84, R86). -/
theorem decodeBlock_append (mk : Block → Instr) (block : Block) (rest : List Byte) :
    decodeFixed 8 (fun d => mk (be 64 (memRead d 0 8))) (bytes block ++ rest) = .packet (mk block) rest := by
  rw [decodeFixed_append _ _ _ _ (bytes_length block), memRead_all _ _ (bytes_length block), be_bytes block rfl]

/-- The data bytes of `RNDF` (R84, R86). -/
theorem decodeHalfSubkey_append (half : Half) (subkey : Subkey) (rest : List Byte) :
    decodeFixed 10 (fun d => .rndf (be 32 (memRead d 0 4)) (be 48 (memRead d 4 6)))
        (bytes half ++ bytes subkey ++ rest) =
      .packet (.rndf half subkey) rest := by
  have hhalf : be 32 (memRead (bytes half ++ bytes subkey) 0 4) = half := be_memRead_bytes half _ rfl
  have hsubkey : memRead (bytes half ++ bytes subkey) 4 6 = bytes subkey :=
    (memRead_append_right (bytes half) (bytes subkey) 0 6).trans (memRead_all _ _ (bytes_length subkey))
  rw [decodeFixed_append _ _ _ _ (by simp), hhalf, hsubkey, be_bytes subkey rfl]

/-- The packet of a well-formed command decodes to it, whatever bytes follow. -/
theorem decode_encode_append (i : Instr) (rest : List Byte) (h : i.wellFormed = true) :
    decode (encode i ++ rest) = .packet i rest := by
  cases i with
  | derive key => exact decodeKey_append .derive key rest ((wellFormed_derive key).mp h)
  | rdks => rfl
  | rndf half subkey => exact decodeHalfSubkey_append half subkey rest
  | encb block => exact decodeBlock_append .encb block rest
  | decb block => exact decodeBlock_append .decb block rest
  | encs data => exact decodeStream_append .encs data rest ((wellFormed_encs data).mp h)
  | decs data => exact decodeStream_append .decs data rest ((wellFormed_decs data).mp h)
  | rst => rfl
  | rdst => rfl

/-! From the command to the packet -/

theorem decodeFixed_eq_packet {m : Nat} {mk : List Byte → Instr} {bs rest : List Byte} {i : Instr}
    (h : decodeFixed m mk bs = .packet i rest) : ∃ d, d.length = m ∧ bs = d ++ rest ∧ i = mk d := by
  obtain ⟨-, hd⟩ | ⟨d, rest', hlen, hbs, hd⟩ := decodeFixed_cases m mk bs
  · simp [hd] at h
  · obtain ⟨rfl, rfl⟩ : mk d = i ∧ rest' = rest := by simpa [hd] using h
    exact ⟨d, hlen, hbs, rfl⟩

theorem decodeKey_eq_packet {mk : List Byte → Instr} {bs rest : List Byte} {i : Instr}
    (h : decodeKey mk bs = .packet i rest) :
    ∃ d, d.length < 2 ^ 8 ∧ bs = BitVec.ofNat 8 d.length :: (d ++ rest) ∧ i = mk d := by
  obtain ⟨-, hd⟩ | ⟨n, d, -, -, hd⟩ | ⟨d, rest', hlen, hbs, hd⟩ := decodeKey_cases mk bs
  · simp [hd] at h
  · simp [hd] at h
  · obtain ⟨rfl, rfl⟩ : mk d = i ∧ rest' = rest := by simpa [hd] using h
    exact ⟨d, hlen, hbs, rfl⟩

theorem decodeStream_eq_packet {mk : List Byte → Instr} {bs rest : List Byte} {i : Instr}
    (h : decodeStream mk bs = .packet i rest) :
    ∃ d, d.length < 2 ^ 32 ∧ bs = bytes (BitVec.ofNat 32 d.length) ++ d ++ rest ∧ i = mk d := by
  obtain ⟨-, hd⟩ | ⟨n, d, -, -, -, hd⟩ | ⟨d, rest', hlen, hbs, hd⟩ := decodeStream_cases mk bs
  · simp [hd] at h
  · simp [hd] at h
  · obtain ⟨rfl, rfl⟩ : mk d = i ∧ rest' = rest := by simpa [hd] using h
    exact ⟨d, hlen, hbs.trans (List.append_assoc _ _ _).symm, rfl⟩

theorem decodeBlock_eq_packet {mk : Block → Instr} {bs rest : List Byte} {i : Instr}
    (h : decodeFixed 8 (fun d => mk (be 64 (memRead d 0 8))) bs = .packet i rest) :
    ∃ block, bs = bytes block ++ rest ∧ i = mk block := by
  obtain ⟨d, hlen, rfl, rfl⟩ := decodeFixed_eq_packet h
  refine ⟨_, ?_, rfl⟩
  rw [memRead_all d 8 hlen, bytes_be 64 d (by rw [hlen])]

theorem decodeHalfSubkey_eq_packet {bs rest : List Byte} {i : Instr}
    (h : decodeFixed 10 (fun d => .rndf (be 32 (memRead d 0 4)) (be 48 (memRead d 4 6))) bs = .packet i rest) :
    ∃ half subkey, bs = bytes half ++ bytes subkey ++ rest ∧ i = .rndf half subkey := by
  obtain ⟨d, hlen, rfl, rfl⟩ := decodeFixed_eq_packet h
  have hhalf : (memRead d 0 4).length = 4 := memRead_length d 0 4 (by omega)
  have hsubkey : (memRead d 4 6).length = 6 := memRead_length d 4 6 (by omega)
  have hd : memRead d 0 4 ++ memRead d 4 6 = d := by
    rw [memRead, memRead, List.drop_zero, List.take_of_length_le (l := d.drop 4) (by simp [hlen]),
      List.take_append_drop]
  refine ⟨_, _, ?_, rfl⟩
  rw [bytes_be 32 _ (by rw [hhalf]), bytes_be 48 _ (by rw [hsubkey]), hd]

/-- A packet that the decoder accepts is its command's encoding, and the command is well-formed. -/
theorem eq_encode_append_of_decode {bs rest : List Byte} {i : Instr} (h : decode bs = .packet i rest) :
    bs = encode i ++ rest ∧ i.wellFormed = true := by
  cases bs with
  | nil => simp [decode] at h
  | cons op bs =>
    rw [decode, decodePacket] at h
    split at h <;> rename_i hop
    · obtain rfl : op = 0x01 := BitVec.eq_of_toNat_eq hop
      obtain ⟨key, hlen, rfl, rfl⟩ := decodeKey_eq_packet h
      exact ⟨rfl, (wellFormed_derive key).mpr hlen⟩
    · obtain rfl : op = 0x02 := BitVec.eq_of_toNat_eq hop
      cases h
      exact ⟨rfl, rfl⟩
    · obtain rfl : op = 0x03 := BitVec.eq_of_toNat_eq hop
      obtain ⟨half, subkey, rfl, rfl⟩ := decodeHalfSubkey_eq_packet h
      exact ⟨rfl, rfl⟩
    · obtain rfl : op = 0x04 := BitVec.eq_of_toNat_eq hop
      obtain ⟨block, rfl, rfl⟩ := decodeBlock_eq_packet h
      exact ⟨rfl, rfl⟩
    · obtain rfl : op = 0x05 := BitVec.eq_of_toNat_eq hop
      obtain ⟨block, rfl, rfl⟩ := decodeBlock_eq_packet h
      exact ⟨rfl, rfl⟩
    · obtain rfl : op = 0x06 := BitVec.eq_of_toNat_eq hop
      obtain ⟨data, hlen, rfl, rfl⟩ := decodeStream_eq_packet h
      exact ⟨rfl, (wellFormed_encs data).mpr hlen⟩
    · obtain rfl : op = 0x07 := BitVec.eq_of_toNat_eq hop
      obtain ⟨data, hlen, rfl, rfl⟩ := decodeStream_eq_packet h
      exact ⟨rfl, (wellFormed_decs data).mpr hlen⟩
    · obtain rfl : op = 0x08 := BitVec.eq_of_toNat_eq hop
      cases h
      exact ⟨rfl, rfl⟩
    · obtain rfl : op = 0x09 := BitVec.eq_of_toNat_eq hop
      cases h
      exact ⟨rfl, rfl⟩
    · cases h

/-- Bytes behind a complete packet stay behind it. -/
theorem decode_append_of_packet {bs rest : List Byte} {i : Instr} (h : decode bs = .packet i rest) (u : List Byte) :
    decode (bs ++ u) = .packet i (rest ++ u) := by
  obtain ⟨rfl, hwf⟩ := eq_encode_append_of_decode h
  rw [List.append_assoc, decode_encode_append i _ hwf]

/-! Illegal opcodes (R81, R91) -/

@[simp] theorem decodeFixed_ne_illegalOpcode (m : Nat) (mk : List Byte → Instr) (bs : List Byte) (op : Byte)
    (rest : List Byte) : decodeFixed m mk bs ≠ .illegalOpcode op rest := by
  obtain ⟨-, hd⟩ | ⟨d, rest', -, -, hd⟩ := decodeFixed_cases m mk bs <;> simp [hd]

@[simp] theorem decodeKey_ne_illegalOpcode (mk : List Byte → Instr) (bs : List Byte) (op : Byte)
    (rest : List Byte) : decodeKey mk bs ≠ .illegalOpcode op rest := by
  obtain ⟨-, hd⟩ | ⟨n, d, -, -, hd⟩ | ⟨d, rest', -, -, hd⟩ := decodeKey_cases mk bs <;> simp [hd]

@[simp] theorem decodeStream_ne_illegalOpcode (mk : List Byte → Instr) (bs : List Byte) (op : Byte)
    (rest : List Byte) : decodeStream mk bs ≠ .illegalOpcode op rest := by
  obtain ⟨-, hd⟩ | ⟨n, d, -, -, -, hd⟩ | ⟨d, rest', -, -, hd⟩ := decodeStream_cases mk bs <;> simp [hd]

theorem decodePacket_of_illegal {op : Byte} (h : op.toNat = 0 ∨ 0x0A ≤ op.toNat) (bs : List Byte) :
    decodePacket op bs = .illegalOpcode op bs := by
  unfold decodePacket
  split
  case h_10 => rfl
  all_goals omega

theorem decodePacket_ne_illegalOpcode {op : Byte} (h : ¬(op.toNat = 0 ∨ 0x0A ≤ op.toNat)) (bs : List Byte)
    (op' : Byte) (rest : List Byte) : decodePacket op bs ≠ .illegalOpcode op' rest := by
  obtain ⟨hlow, hhigh⟩ : 1 ≤ op.toNat ∧ op.toNat ≤ 9 := by omega
  interval_cases hop : op.toNat <;> simp [decodePacket, hop]

/-- The decoder finds an illegal opcode exactly where the first byte is none of the nine. -/
theorem decode_eq_illegalOpcode_iff {bs rest : List Byte} {op : Byte} :
    decode bs = .illegalOpcode op rest ↔ bs = op :: rest ∧ (op.toNat = 0 ∨ 0x0A ≤ op.toNat) := by
  constructor
  · intro h
    cases bs with
    | nil => simp [decode] at h
    | cons op' bs =>
      rw [decode] at h
      by_cases hop : op'.toNat = 0 ∨ 0x0A ≤ op'.toNat
      · rw [decodePacket_of_illegal hop] at h
        cases h
        exact ⟨rfl, hop⟩
      · exact absurd h (decodePacket_ne_illegalOpcode hop bs op rest)
  · rintro ⟨rfl, hop⟩
    exact decodePacket_of_illegal hop rest

/-- Bytes behind an illegal opcode stay behind it. -/
theorem decode_append_of_illegalOpcode {bs rest : List Byte} {op : Byte} (h : decode bs = .illegalOpcode op rest)
    (u : List Byte) : decode (bs ++ u) = .illegalOpcode op (rest ++ u) := by
  obtain ⟨rfl, hop⟩ := decode_eq_illegalOpcode_iff.mp h
  exact decode_eq_illegalOpcode_iff.mpr ⟨rfl, hop⟩

end Sys2Proof
end

section
/-! The command and the response channel along the steps (spec/20_memory.md R50, R59, R62, R63): one packet is one step,
a step takes bytes from the head of `CMD` and appends bytes to `RSP`, and bytes that the host appends wait their
turn. -/

namespace Sys2Proof.Machine

/-! One packet, one step -/

/-- A step with a command's packet at the head of `CMD` executes that command. -/
theorem step_encode (s : State) (i : Instr) (rest : List Byte) (hs : s.halted = false) (hi : i.wellFormed = true)
    (hcmd : s.cmd = encode i ++ rest) : step s = exec i (s.fetched i rest) :=
  step_packet s i rest hs (hcmd ▸ decode_encode_append i rest hi)

/-- Settles O6: the packet decodes to its command, and `State.fetched` is the state the command is executed on. -/
theorem stepRunsTheDecodedCommand : Obligations.StepRunsTheDecodedCommand := step_encode

/-- Every command appends at least its status byte to what has been answered (R63). -/
theorem perform_rsp (i : Instr) (s : State) :
    ∃ answered, answered ≠ [] ∧ (s.perform i).rsp = s.rsp ++ answered := by
  obtain ⟨e, h⟩ | ⟨p, -, -, h⟩ | ⟨p, K, -, -, h⟩ | ⟨key, -, -, h⟩ | ⟨-, h⟩ := exec_cases i s <;>
    rw [perform_of_next h]
  · exact ⟨_, List.cons_ne_nil _ _, s.raiseError_rsp e⟩
  · exact ⟨_, List.cons_ne_nil _ _, s.respond_rsp .ok p⟩
  · exact ⟨_, List.cons_ne_nil _ _, s.warnTruncated_rsp p⟩
  · exact ⟨_, List.cons_ne_nil _ _, State.respond_rsp _ .ok []⟩
  · exact ⟨_, List.cons_ne_nil _ _, s.clearRegisters.respond_rsp .ok []⟩

/-- What a run of packets leaves on the channels and in `HALTED`. -/
theorem performAll_frame (rest : List Byte) (is : List Instr) (s : State) (hs : s.halted = false)
    (hcmd : s.cmd = is.flatMap encode ++ rest) :
    (State.performAll rest is s).cmd = rest ∧ (State.performAll rest is s).halted = false ∧
      s.rsp <+: (State.performAll rest is s).rsp := by
  induction is generalizing s with
  | nil => exact ⟨hcmd, hs, List.prefix_refl _⟩
  | cons i is ih =>
    obtain ⟨hhalted, hleft⟩ := perform_frame i (s.fetched i (is.flatMap encode ++ rest))
    obtain ⟨answered, -, hrsp⟩ := perform_rsp i (s.fetched i (is.flatMap encode ++ rest))
    obtain ⟨hc, hh, hr⟩ := ih _ (hhalted.trans hs) hleft
    exact ⟨hc, hh, (List.prefix_append s.rsp answered).trans (hrsp ▸ hr)⟩

/-- As many steps as there are packets execute their commands one after another. -/
theorem run_eq_performAll (rest : List Byte) (is : List Instr) (s : State) (hs : s.halted = false)
    (hwf : ∀ i ∈ is, i.wellFormed = true) (hcmd : s.cmd = is.flatMap encode ++ rest) :
    Host.Core.run core is.length s = .next (State.performAll rest is s) := by
  induction is generalizing s with
  | nil => rfl
  | cons i is ih =>
    have hcmd' : s.cmd = encode i ++ (is.flatMap encode ++ rest) := by simpa using hcmd
    have hstep := step_encode s i _ hs (hwf i List.mem_cons_self) hcmd'
    rw [exec_eq_perform] at hstep
    obtain ⟨hhalted, hleft⟩ := perform_frame i (s.fetched i (is.flatMap encode ++ rest))
    rw [List.length_cons, run_succ _ _ _ hstep]
    exact ih _ (hhalted.trans hs) (fun j hj => hwf j (List.mem_cons_of_mem i hj)) hleft

/-- Settles O9: by induction on the packets, each of them one step. -/
theorem packetsRunInOrderOneAtATime : Obligations.PacketsRunInOrderOneAtATime := by
  intro s is rest hs hwf hcmd
  exact ⟨_, run_eq_performAll rest is s hs hwf hcmd, rfl, performAll_frame rest is s hs hcmd⟩

/-! What a step takes and answers -/

/-- Settles O11: a packet is at least its opcode byte, every command answers, and only an illegal opcode halts. -/
theorem stepConsumesCommandsAndOnlyAppendsResponses : Obligations.StepConsumesCommandsAndOnlyAppendsResponses := by
  intro s t hstep
  obtain ⟨hs, ⟨i, rest, hd, rfl⟩ | ⟨op, rest, hd, rfl⟩⟩ := step_cases s t hstep
  · obtain ⟨hcmd, -⟩ := eq_encode_append_of_decode hd
    obtain ⟨hhalted, hleft⟩ := perform_frame i (s.fetched i rest)
    refine ⟨⟨encode i, List.cons_ne_nil _ _, by rw [hleft, hcmd, s.fetched_cmd]⟩,
      perform_rsp i (s.fetched i rest), ?_⟩
    intro ht
    simp [hhalted, hs] at ht
  · obtain ⟨hcmd, hop⟩ := decode_eq_illegalOpcode_iff.mp hd
    exact ⟨⟨[op], List.cons_ne_nil _ _, hcmd⟩, ⟨_, List.cons_ne_nil _ _, s.illegalCommand_rsp rest⟩,
      fun _ => ⟨op, rest, hcmd, hop⟩⟩

/-! Bytes the host appends: every operation leaves them at the tail of `CMD`. -/

theorem State.hostSend_fetched (s : State) (sent : List Byte) (i : Instr) (rest : List Byte) :
    (s.hostSend sent).fetched i (rest ++ sent) = (s.fetched i rest).hostSend sent := rfl

theorem State.hostSend_respond (s : State) (sent : List Byte) (st : StatusCode) (payload : List Byte) :
    (s.hostSend sent).respond st payload = (s.respond st payload).hostSend sent := rfl

theorem State.hostSend_raiseError (s : State) (sent : List Byte) (e : ErrorKind) :
    (s.hostSend sent).raiseError e = (s.raiseError e).hostSend sent := by
  cases e <;> rfl

theorem State.hostSend_warnTruncated (s : State) (sent payload : List Byte) :
    (s.hostSend sent).warnTruncated payload = (s.warnTruncated payload).hostSend sent := rfl

theorem State.hostSend_illegalCommand (s : State) (sent rest : List Byte) :
    (s.hostSend sent).illegalCommand (rest ++ sent) = (s.illegalCommand rest).hostSend sent := rfl

theorem State.hostSend_withSchedule (s : State) (sent : List Byte) {run run' : Schedule → State}
    (hrun : ∀ K, run' K = (run K).hostSend sent) :
    (s.hostSend sent).withSchedule run' = (s.withSchedule run).hostSend sent := by
  obtain ⟨hk, hs⟩ | ⟨K, hk, hs⟩ := s.withSchedule_cases run
  · rw [hs, (s.hostSend sent).withSchedule_none run' hk, State.hostSend_raiseError]
  · rw [hs, (s.hostSend sent).withSchedule_some run' K hk, hrun]

theorem exec_derive_hostSend (key : List Byte) (s : State) (sent : List Byte) :
    exec (.derive key) (s.hostSend sent) = .next ((s.perform (.derive key)).hostSend sent) := by
  by_cases hlen : key.length = 8
  · rw [exec_derive_ok key _ hlen, perform_of_next (exec_derive_ok key s hlen)]
    exact congrArg Host.Outcome.next (State.hostSend_respond { s with ks := some (scheduleOf (be 64 key)) } sent .ok [])
  · rw [exec_derive_error key _ hlen, perform_of_next (exec_derive_error key s hlen), State.hostSend_raiseError]

/-- No command reads what stands on `CMD`, and none touches it. -/
theorem exec_hostSend (i : Instr) (s : State) (sent : List Byte) :
    exec i (s.hostSend sent) = .next ((s.perform i).hostSend sent) := by
  cases i with
  | derive key => exact exec_derive_hostSend key s sent
  | rdks => exact congrArg Host.Outcome.next (s.hostSend_withSchedule sent fun _ => s.hostSend_respond sent .ok _)
  | rndf half subkey => exact congrArg Host.Outcome.next (s.hostSend_respond sent .ok _)
  | encb block => exact congrArg Host.Outcome.next (s.hostSend_withSchedule sent fun _ => s.hostSend_respond sent .ok _)
  | decb block => exact congrArg Host.Outcome.next (s.hostSend_withSchedule sent fun _ => s.hostSend_respond sent .ok _)
  | encs data => exact congrArg Host.Outcome.next (s.hostSend_withSchedule sent fun _ => s.hostSend_respond sent .ok _)
  | decs data =>
    refine congrArg Host.Outcome.next (s.hostSend_withSchedule sent fun K => ?_)
    by_cases h8 : data.length % 8 ≠ 0
    · rw [if_pos h8, if_pos h8]
      exact s.hostSend_warnTruncated sent _
    · rw [if_neg h8, if_neg h8]
      exact s.hostSend_respond sent .ok _
  | rst => exact congrArg Host.Outcome.next (s.clearRegisters.hostSend_respond sent .ok [])
  | rdst => exact congrArg Host.Outcome.next (s.hostSend_respond sent .ok [s.status])

/-- Settles O10: the decoder finds the same packet or illegal opcode, and no operation reads the bytes behind it. -/
theorem laterBytesDoNotChangeAStep : Obligations.LaterBytesDoNotChangeAStep := by
  intro s t sent hstep
  obtain ⟨hs, ⟨i, rest, hd, rfl⟩ | ⟨op, rest, hd, rfl⟩⟩ := step_cases s t hstep
  · rw [step_packet (s.hostSend sent) i _ hs (decode_append_of_packet hd sent), State.hostSend_fetched, exec_hostSend]
  · rw [step_illegalOpcode (s.hostSend sent) op _ hs (decode_append_of_illegalOpcode hd sent),
      State.hostSend_illegalCommand]

end Sys2Proof.Machine
end

section
/-! The decoder on any bytes (spec/30_encoding.md R81 to R95): the packet of each command, a begun packet can be
completed, and the one way to read bytes as packets and a tail. -/

namespace Sys2Proof

/-! Packets and their commands -/

/-- Settles O1: the packets by the definition of `encode`, the illegal opcodes by what the decoder finds there. -/
theorem packetOfEachCommand : Obligations.PacketOfEachCommand :=
  ⟨fun _ => rfl, rfl, fun _ _ => rfl, fun _ => rfl, fun _ => rfl, fun _ => rfl, fun _ => rfl, rfl, rfl,
    fun _ _ => decode_eq_illegalOpcode_iff.trans (and_iff_right rfl)⟩

/-- Settles O2: each packet is the encoding of its command, with the bytes left over behind it. -/
theorem decodingOfTheSpecsExamplePackets : Obligations.DecodingOfTheSpecsExamplePackets :=
  ⟨decode_encode_append (.derive [0x01, 0x23, 0x45, 0x67, 0x89, 0xAB, 0xCD, 0xEF]) [] rfl,
    decode_encode_append .rdks [] rfl,
    decode_encode_append (.rndf 0xF0AAF0AA 0x1B02EFFC7072) [] rfl,
    decode_encode_append (.encb 0x0123456789ABCDEF) [0x09] rfl,
    decode_encode_append (.encs [0x48, 0x65, 0x6C, 0x6C, 0x6F]) [] rfl,
    decode_encode_append (.encs []) [] rfl,
    decode_eq_illegalOpcode_iff.mpr ⟨rfl, .inr (Nat.le_refl 10)⟩⟩

/-- Settles O3: by the format of the command, each field reading back as the value written into it. -/
theorem decodeReadsEveryEncodedCommand : Obligations.DecodeReadsEveryEncodedCommand := decode_encode_append

/-- Settles O4: by the opcode byte, each format's decoder accepting nothing but the packet it reads. -/
theorem acceptedPacketIsItsCommandsEncoding : Obligations.AcceptedPacketIsItsCommandsEncoding :=
  fun _ _ _ h => eq_encode_append_of_decode h

/-! A packet that has begun is complete, or some further bytes complete it (R87, R95). -/

/-- A decoder reads a packet from the bytes, or waits for bytes that complete one. -/
def ReadsOrAwaits (dec : List Byte → Decoded) (bs : List Byte) : Prop :=
  (∃ i rest, dec bs = .packet i rest) ∨
    (dec bs = .incompletePacket ∧ ∃ more i, dec (bs ++ more) = .packet i [])

theorem exists_decodeFixed_append (m : Nat) (mk : List Byte → Instr) (d : List Byte) (h : d.length ≤ m) :
    ∃ more i, decodeFixed m mk (d ++ more) = .packet i [] := by
  have hlen : (d ++ zeros (m - d.length)).length = m := by simp; omega
  exact ⟨_, _, by simpa using decodeFixed_append m mk _ [] hlen⟩

theorem decodeFixed_readsOrAwaits (m : Nat) (mk : List Byte → Instr) (bs : List Byte) :
    ReadsOrAwaits (decodeFixed m mk) bs := by
  obtain ⟨hlt, hd⟩ | ⟨d, rest, -, -, hd⟩ := decodeFixed_cases m mk bs
  · exact .inr ⟨hd, exists_decodeFixed_append m mk bs hlt.le⟩
  · exact .inl ⟨_, _, hd⟩

theorem decodeKey_readsOrAwaits (mk : List Byte → Instr) (bs : List Byte) : ReadsOrAwaits (decodeKey mk) bs := by
  cases bs with
  | nil => exact .inr ⟨rfl, [0x00], mk [], rfl⟩
  | cons n bs => exact decodeFixed_readsOrAwaits n.toNat mk bs

/-- Four bytes are a length field, and the data bytes follow it (R85). -/
theorem decodeStream_field_append (mk : List Byte → Instr) (field bs : List Byte) (h : field.length = 4) :
    decodeStream mk (field ++ bs) = decodeFixed (be 32 field).toNat mk bs := by
  rw [decodeStream, if_neg (by simp [h]), ← h, List.take_left, List.drop_left]

/-- A length field that has begun is completed by zeros, and then by the data bytes that it announces. -/
theorem decodeStream_readsOrAwaits (mk : List Byte → Instr) (bs : List Byte) :
    ReadsOrAwaits (decodeStream mk) bs := by
  by_cases h : bs.length < 4
  · have hfield : (bs ++ zeros (4 - bs.length)).length = 4 := by simp; omega
    obtain ⟨more, i, hd⟩ := exists_decodeFixed_append (be 32 (bs ++ zeros (4 - bs.length))).toNat mk [] (Nat.zero_le _)
    refine .inr ⟨by simp [decodeStream, h], zeros (4 - bs.length) ++ more, i, ?_⟩
    rw [← List.append_assoc, decodeStream_field_append _ _ _ hfield]
    exact hd
  · have hfield : (bs.take 4).length = 4 := by simp; omega
    have hsplit (more : List Byte) :
        decodeStream mk (bs ++ more) = decodeFixed (be 32 (bs.take 4)).toNat mk (bs.drop 4 ++ more) := by
      rw [← decodeStream_field_append _ _ _ hfield, ← List.append_assoc, List.take_append_drop]
    have hbs : decodeStream mk bs = decodeFixed (be 32 (bs.take 4)).toNat mk (bs.drop 4) := by
      simpa using hsplit []
    simpa only [ReadsOrAwaits, hbs, hsplit] using decodeFixed_readsOrAwaits (be 32 (bs.take 4)).toNat mk (bs.drop 4)

/-- The nine opcodes of R81. -/
theorem opcode_cases_of_legal {op : Byte} (h : ¬(op.toNat = 0 ∨ 0x0A ≤ op.toNat)) :
    op = 0x01 ∨ op = 0x02 ∨ op = 0x03 ∨ op = 0x04 ∨ op = 0x05 ∨ op = 0x06 ∨ op = 0x07 ∨ op = 0x08 ∨ op = 0x09 := by
  bv_omega

theorem decode_readsOrAwaits_of_legal {op : Byte} (h : ¬(op.toNat = 0 ∨ 0x0A ≤ op.toNat)) (bs : List Byte) :
    ReadsOrAwaits decode (op :: bs) := by
  obtain rfl | rfl | rfl | rfl | rfl | rfl | rfl | rfl | rfl := opcode_cases_of_legal h
  · exact decodeKey_readsOrAwaits .derive bs
  · exact .inl ⟨.rdks, bs, rfl⟩
  · exact decodeFixed_readsOrAwaits 10 (fun d => .rndf (be 32 (memRead d 0 4)) (be 48 (memRead d 4 6))) bs
  · exact decodeFixed_readsOrAwaits 8 (fun d => .encb (be 64 (memRead d 0 8))) bs
  · exact decodeFixed_readsOrAwaits 8 (fun d => .decb (be 64 (memRead d 0 8))) bs
  · exact decodeStream_readsOrAwaits .encs bs
  · exact decodeStream_readsOrAwaits .decs bs
  · exact .inl ⟨.rst, bs, rfl⟩
  · exact .inl ⟨.rdst, bs, rfl⟩

/-! Packets and a tail (R95) -/

/-- What can follow the complete packets: nothing, an incomplete legal packet, or an illegal opcode. -/
def IsTail (tail : List Byte) : Prop :=
  (tail = [] ∧ decode tail = .noPacket) ∨
    (tail ≠ [] ∧ decode tail = .incompletePacket ∧
      ∃ (i : Instr) (more : List Byte), i.wellFormed = true ∧ more ≠ [] ∧ tail ++ more = encode i) ∨
    ∃ (op : Byte) (rest : List Byte), tail = op :: rest ∧ (op.toNat = 0 ∨ 0x0A ≤ op.toNat) ∧
      decode tail = .illegalOpcode op rest

theorem IsTail.decode_ne_packet {tail : List Byte} (h : IsTail tail) (i : Instr) (rest : List Byte) :
    decode tail ≠ .packet i rest := by
  obtain ⟨-, hd⟩ | ⟨-, hd, -⟩ | ⟨op, rest', -, -, hd⟩ := h <;> simp [hd]

/-- Bytes that the decoder waits on are the beginning of a well-formed command's packet. -/
theorem exists_encode_eq_append {bs more : List Byte} {i : Instr} (hbs : decode bs = .incompletePacket)
    (hd : decode (bs ++ more) = .packet i []) : i.wellFormed = true ∧ more ≠ [] ∧ bs ++ more = encode i := by
  obtain ⟨henc, hwf⟩ := eq_encode_append_of_decode hd
  refine ⟨hwf, ?_, henc.trans (List.append_nil _)⟩
  rintro rfl
  simp [hbs] at hd

/-- At any bytes the decoder reads a packet, or they are a tail. -/
theorem decode_packet_or_isTail (bs : List Byte) : (∃ i rest, decode bs = .packet i rest) ∨ IsTail bs := by
  cases bs with
  | nil => exact .inr (.inl ⟨rfl, rfl⟩)
  | cons op bs =>
    by_cases hop : op.toNat = 0 ∨ 0x0A ≤ op.toNat
    · exact .inr (.inr (.inr ⟨op, bs, rfl, hop, decodePacket_of_illegal hop bs⟩))
    · obtain hd | ⟨hd, more, i, hmore⟩ := decode_readsOrAwaits_of_legal hop bs
      · exact .inl hd
      · exact .inr (.inr (.inl ⟨List.cons_ne_nil _ _, hd, i, more, exists_encode_eq_append hd hmore⟩))

/-- The bytes are the packets of well-formed commands and a tail. -/
structure IsParse (bs : List Byte) (is : List Instr) (tail : List Byte) : Prop where
  eq : bs = is.flatMap encode ++ tail
  wellFormed : ∀ i ∈ is, i.wellFormed = true
  isTail : IsTail tail

/-- Packet by packet, each at least its opcode byte long. -/
theorem exists_isParse (bs : List Byte) : ∃ is tail, IsParse bs is tail := by
  obtain ⟨i, rest, hd⟩ | htail := decode_packet_or_isTail bs
  · obtain ⟨hbs, hwf⟩ := eq_encode_append_of_decode hd
    obtain ⟨is, tail, hrest⟩ := exists_isParse rest
    refine ⟨i :: is, tail, ?_, List.forall_mem_cons.mpr ⟨hwf, hrest.wellFormed⟩, hrest.isTail⟩
    rw [hbs, hrest.eq, List.flatMap_cons, List.append_assoc]
  · exact ⟨[], bs, rfl, by simp, htail⟩
termination_by bs.length
decreasing_by simp [hbs, encode]; omega

theorem IsParse.decode_eq_packet {bs tail : List Byte} {i : Instr} {is : List Instr} (h : IsParse bs (i :: is) tail) :
    decode bs = .packet i (is.flatMap encode ++ tail) := by
  rw [h.eq, List.flatMap_cons, List.append_assoc, decode_encode_append i _ (h.wellFormed i List.mem_cons_self)]

/-- Where there are packets, the decoder reads the first of them; where there are none, it reads none. -/
theorem IsParse.unique {bs tail tail' : List Byte} {is js : List Instr} (h : IsParse bs is tail)
    (h' : IsParse bs js tail') : is = js ∧ tail = tail' := by
  induction is generalizing bs js with
  | nil =>
    cases js with
    | nil => exact ⟨rfl, by simpa using h.eq.symm.trans h'.eq⟩
    | cons j js =>
      obtain rfl : bs = tail := h.eq
      exact absurd h'.decode_eq_packet (h.isTail.decode_ne_packet j _)
  | cons i is ih =>
    cases js with
    | nil =>
      obtain rfl : bs = tail' := h'.eq
      exact absurd h.decode_eq_packet (h'.isTail.decode_ne_packet i _)
    | cons j js =>
      obtain ⟨rfl, hrest⟩ : i = j ∧ is.flatMap encode ++ tail = js.flatMap encode ++ tail' := by
        simpa using h.decode_eq_packet.symm.trans h'.decode_eq_packet
      obtain ⟨rfl, rfl⟩ := ih ⟨rfl, fun k hk => h.wellFormed k (List.mem_cons_of_mem i hk), h.isTail⟩
        ⟨hrest, fun k hk => h'.wellFormed k (List.mem_cons_of_mem i hk), h'.isTail⟩
      exact ⟨rfl, rfl⟩

/-- Settles O5: the decoder takes packets from the head as long as there are any, and no other parse agrees with what
it answers. -/
theorem anyBytesAreUniquelyPacketsAndATail : Obligations.AnyBytesAreUniquelyPacketsAndATail := by
  intro bs
  obtain ⟨is, tail, h⟩ := exists_isParse bs
  refine ⟨(is, tail), ⟨h.eq, h.wellFormed, h.isTail⟩, fun q ⟨heq, hwf, htail⟩ => ?_⟩
  obtain ⟨his, htail⟩ := IsParse.unique ⟨heq, hwf, htail⟩ h
  exact Prod.ext his htail

end Sys2Proof
end

section
/-! Responses (spec/30_encoding.md R88 to R91, spec/60_exceptions.md R244, R245): the halt on an illegal opcode, and the
one response of each command. -/

namespace Sys2Proof.Machine

/-! The halt -/

@[simp] theorem State.hostReceive_halted (s : State) (n : Nat) : (s.hostReceive n).2.halted = s.halted := rfl

/-- A halted engine has no step, whatever the host sends or takes. -/
theorem step_ne_next_of_halted {s : State} (h : s.halted = true) (t : State) : step s ≠ .next t := by
  simp [step_halted s h]

/-- Settles O7: the illegal opcode answers `State.illegalCommand`, and the host's channels leave `HALTED` as it is. -/
theorem illegalOpcodeHaltsTheEngine : Obligations.IllegalOpcodeHaltsTheEngine := by
  intro s op rest hs hcmd hop
  have hdecode : decode s.cmd = .illegalOpcode op rest := decode_eq_illegalOpcode_iff.mpr ⟨hcmd, hop⟩
  refine ⟨s.illegalCommand rest, step_illegalOpcode s op rest hs hdecode, rfl, rfl, s.illegalCommand_rsp rest, rfl,
    rfl, rfl, fun sent n u => step_ne_next_of_halted (by simp) u, rfl⟩

/-! One response for each command -/

/-- An error's status byte is one without a payload (R89). -/
theorem ErrorKind.status_without_payload (e : ErrorKind) :
    e.status ≠ .illegalCommand ∧ ¬(e.status = .ok ∨ e.status = .truncatedBlock) := by
  cases e <;> decide

/-- Settles O22: an error answers its status alone, the other ways to end a command the payload of R90. -/
theorem everyCommandAnswersOneResponse : Obligations.EveryCommandAnswersOneResponse := by
  intro i s
  obtain ⟨e, h⟩ | ⟨p, -, hlen, h⟩ | ⟨p, K, -, hlen, h⟩ | ⟨key, rfl, -, h⟩ | ⟨rfl, h⟩ := exec_cases i s
  · obtain ⟨hillegal, hnone⟩ := e.status_without_payload
    exact ⟨_, e.status, [], h, s.raiseError_rsp e, hillegal, (if_neg hnone).symm⟩
  · exact ⟨_, .ok, p, h, s.respond_rsp .ok p, nofun, hlen⟩
  · exact ⟨_, .truncatedBlock, p, h, s.warnTruncated_rsp p, nofun, hlen⟩
  · exact ⟨_, .ok, [], h, State.respond_rsp _ .ok [], nofun, rfl⟩
  · exact ⟨_, .ok, [], h, s.clearRegisters.respond_rsp .ok [], nofun, rfl⟩

end Sys2Proof.Machine
end

section
/-! The constant tables (spec/40_tables.md R110 to R121): what a permutation by a table does to bits, two tables whose
entries invert each other, and rotations that add up to a whole turn. -/

namespace Sys2Proof.Machine

/-! The permutation primitive (R110) -/

/-- In DES numbering a table's entry is the place its bit comes from. -/
theorem bitM_permute {n m : Nat} (T : List Nat) (v : BitVec n) (j : Nat) (hT : T.length = m) (h1 : 1 ≤ j)
    (hm : j ≤ m) : bitM (permute (m := m) T v) j = bitM v (tableEntry T j) := by
  rw [bitM_eq, getLsbD_permute T v (m - j) hT (by omega), tableEntry, show m - 1 - (m - j) = j - 1 by omega]

/-- Settles O34: by the bits of a permutation's result counted from the right. -/
theorem permutePicksTheTablesBits : Obligations.PermutePicksTheTablesBits :=
  fun _ _ T v j hT _ h1 hm => bitM_permute T v j hT h1 hm

/-! Tables that are permutations, and their inverses (R121 item 1) -/

/-- A table that lists each of `1..n` once has no room for anything else. -/
theorem range'_perm_of_isPermutationOf {n : Nat} {T : List Nat} (hT : isPermutationOf n T) :
    (List.range' 1 n).Perm T := by
  obtain ⟨hlen, hcount⟩ := hT
  have hsub : List.range' 1 n ⊆ T := fun j hj => List.count_pos_iff.mp (by rw [hcount j hj]; exact Nat.one_pos)
  exact (List.subperm_of_subset List.nodup_range' hsub).perm_of_length_le (by simp [hlen])

theorem tableEntry_mem_range' {n : Nat} {T : List Nat} (hT : isPermutationOf n T) {j : Nat} (h1 : 1 ≤ j)
    (hn : j ≤ n) : tableEntry T j ∈ List.range' 1 n := by
  have hj : j - 1 < T.length := by rw [hT.1]; omega
  rw [(range'_perm_of_isPermutationOf hT).mem_iff, tableEntry, List.getD_eq_getElem _ _ hj]
  exact List.getElem_mem hj

/-- Where table `U` inverts table `T` entry by entry, permuting by `U` undoes permuting by `T`. -/
theorem permute_permute_of_inverse {n : Nat} {T U : List Nat} (hT : isPermutationOf n T) (hU : isPermutationOf n U)
    (hinv : ∀ j ∈ List.range' 1 n, tableEntry T (tableEntry U j) = j) (v : BitVec n) :
    permute (m := n) U (permute (m := n) T v) = v := by
  refine eq_of_bitM_eq fun j h1 hn => ?_
  obtain ⟨hentry1, hentryn⟩ := List.mem_range'_1.mp (tableEntry_mem_range' hU h1 hn)
  rw [bitM_permute U _ j hU.1 h1 hn, bitM_permute T v _ hT.1 hentry1 (by omega),
    hinv j (List.mem_range'_1.mpr ⟨h1, by omega⟩)]

theorem tableIP_tableFP_inverse : ipFpInverse := by decide

/-- Settles O36: the entries of `IP` and `FP` invert each other in both orders. -/
theorem finalPermutationUndoesInitialPermutation : Obligations.FinalPermutationUndoesInitialPermutation := by
  intro v
  obtain ⟨hIP, hFP, hinv⟩ := tableIP_tableFP_inverse
  exact ⟨permute_permute_of_inverse hIP hFP (fun j hj => (hinv j hj).1) v,
    permute_permute_of_inverse hFP hIP (fun j hj => (hinv j hj).2) v⟩

/-! The S-box lookup (R118) -/

theorem sboxRow_eq_outer_bits (b : BitVec 6) : sboxRow b = 2 * (b.getLsbD 5).toNat + (b.getLsbD 0).toNat := rfl

/-- The number that four bits spell. -/
theorem toNat_eq_bits : ∀ x : BitVec 4, x.toNat = 8 * (x.getLsbD 3).toNat + 4 * (x.getLsbD 2).toNat +
    2 * (x.getLsbD 1).toNat + (x.getLsbD 0).toNat := by decide

theorem sboxCol_eq_inner_bits (b : BitVec 6) : sboxCol b = (b.extractLsb' 1 4).toNat := by
  rw [toNat_eq_bits]
  simp [sboxCol, bitM_eq]

/-- Settles O37: the bits of the row and of the column, in the order of their significance. -/
theorem sboxLookupTakesOuterRowAndInnerColumn : Obligations.SboxLookupTakesOuterRowAndInnerColumn := by
  intro i b _
  rw [sbox, sboxRow_eq_outer_bits, sboxCol_eq_inner_bits]

/-! Rotations (R119, R121 item 7) -/

/-- How far rounds `1..i` rotate the halves together. -/
def totalRotation (i : Nat) : Nat := ((List.range' 1 i).map shiftAmount).sum

@[simp] theorem totalRotation_zero : totalRotation 0 = 0 := rfl

theorem totalRotation_succ (i : Nat) : totalRotation (i + 1) = totalRotation i + shiftAmount (i + 1) := by
  simp [totalRotation, List.range'_1_concat, Nat.add_comm]

theorem totalRotation_sixteen : totalRotation 16 = 28 := by decide

/-- Settles O38: by the sixteen entries of the table. -/
theorem rotationAmountOfEachRound : Obligations.RotationAmountOfEachRound := by
  refine ⟨fun i h1 h16 => ?_, totalRotation_sixteen⟩
  interval_cases i <;> rfl

/-- Also beyond the sixteen rounds, where the table has no entry. -/
theorem shiftAmount_le_two (i : Nat) : shiftAmount i ≤ 2 := by
  by_cases hi : i - 1 < tableShifts.length
  · rw [shiftAmount, List.getD_eq_getElem _ _ hi]
    exact (show ∀ s ∈ tableShifts, s ≤ 2 by decide) _ (List.getElem_mem hi)
  · rw [shiftAmount, List.getD_eq_default _ _ (not_lt.mp hi)]
    omega

theorem rotateLeft_zero {w : Nat} (x : BitVec w) : x.rotateLeft 0 = x := by
  refine BitVec.eq_of_getMsbD_eq fun p hp => ?_
  simp [BitVec.getMsbD_rotateLeft, hp, Nat.mod_eq_of_lt hp]

/-- Rotations of one word add up. -/
theorem rotateLeft_rotateLeft {w : Nat} (x : BitVec w) (r s : Nat) :
    (x.rotateLeft r).rotateLeft s = x.rotateLeft (r + s) := by
  refine BitVec.eq_of_getMsbD_eq fun p hp => ?_
  have hlt : (s + p) % w < w := Nat.mod_lt _ (by omega)
  simp [BitVec.getMsbD_rotateLeft, hp, hlt, Nat.add_assoc]

/-- The bits shifted out at the left and the bits that stay have no place in common, so the sum of R9 joins them. -/
theorem rol28_eq_rotateLeft (x : BitVec 28) {s : Nat} (hs : s < 28) : rol28 x s = x.rotateLeft s := by
  have hdisjoint : x <<< s &&& x >>> (28 - s) = 0 := by
    ext p hp
    by_cases hps : p < s
    · simp [hps]
    · simp [hps, BitVec.getLsbD_of_ge x (28 - s + p) (by omega)]
  rw [rol28, BitVec.add_eq_or_of_and_eq_zero _ _ hdisjoint, BitVec.rotateLeft_def, Nat.mod_eq_of_lt hs]

/-- The rotations accumulate: the halves after round `i` are the initial halves, each rotated within its own 28 bits by
the amounts of all rounds so far (R143). -/
theorem halvesAfter_eq_rotateLeft (key : Block) (i : Nat) :
    halvesAfter key i = { c := (initialHalves key).c.rotateLeft (totalRotation i),
                          d := (initialHalves key).d.rotateLeft (totalRotation i) } := by
  induction i with
  | zero => rw [halvesAfter, totalRotation_zero, rotateLeft_zero, rotateLeft_zero]
  | succ i ih =>
    have hs : shiftAmount (i + 1) < 28 := by have := shiftAmount_le_two (i + 1); omega
    rw [halvesAfter, ih, Halves.rotate, rol28_eq_rotateLeft _ hs, rol28_eq_rotateLeft _ hs, rotateLeft_rotateLeft,
      rotateLeft_rotateLeft, totalRotation_succ]

/-- Sixteen rounds are one whole turn of 28 bits. -/
theorem halvesAfter_sixteen (key : Block) : halvesAfter key 16 = halvesAfter key 0 := by
  have hturn (x : BitVec 28) : x.rotateLeft 28 = x := by
    rw [← BitVec.rotateLeft_mod_eq_rotateLeft, Nat.mod_self, rotateLeft_zero]
  rw [halvesAfter_eq_rotateLeft, totalRotation_sixteen, hturn, hturn, halvesAfter]

/-! The consistency checks (R121) -/

theorem tablePC1_omits_multiples_of_eight : pc1OmitsMultiplesOfEight := by decide

theorem tablePC2_selects_distinct_bits : pc2SelectsDistinctBits := by decide

theorem tableE_repeats_sixteen_bits : eRepeatsSixteenBits := by decide

theorem tableP_is_permutation : pIsPermutation := by decide

theorem sboxMatrices_rows_are_permutations : sboxRowsArePermutations := by decide

theorem tableShifts_sum : shiftsSumToTwentyEight := by decide

/-- Settles O35: the entries are checked one by one, and what holds of every block and of every key follows from
them. -/
theorem tablesPassTheSpecsConsistencyChecks : Obligations.TablesPassTheSpecsConsistencyChecks :=
  ⟨⟨tableIP_tableFP_inverse, fun v => (finalPermutationUndoesInitialPermutation v).1⟩,
    tablePC1_omits_multiples_of_eight, tablePC2_selects_distinct_bits, tableE_repeats_sixteen_bits,
    tableP_is_permutation, sboxMatrices_rows_are_permutations, tableShifts_sum, halvesAfter_sixteen⟩

end Sys2Proof.Machine
end

section
/-! The key schedule (spec/41_key_schedule.md R140 to R151): the responses of `DERIVE` and `RDKS`, the halves round by
round, and which bit of the key each bit of a subkey is. -/

namespace Sys2Proof.Machine

/-! Responses -/

/-- A response changes no register (R88). -/
theorem State.respond_sameRegisters (s : State) (st : StatusCode) (payload : List Byte) :
    SameRegisters s (s.respond st payload) where
  ks := s.respond_ks st payload
  sticky := ⟨s.respond_eKeylen st payload, s.respond_eNosched st payload, s.respond_wTrunc st payload⟩
  halted := s.respond_halted st payload
  cmd := s.respond_cmd st payload

/-- Raising an error leaves what R244 says. -/
theorem State.raiseError_refuses (s : State) (e : ErrorKind) : Refuses s (s.raiseError e) e where
  ks := s.raiseError_ks e
  halted := s.raiseError_halted e
  cmd := s.raiseError_cmd e
  wTrunc := s.raiseError_wTrunc e
  eKeylen := s.raiseError_eKeylen e
  eNosched := s.raiseError_eNosched e
  answer := s.raiseError_rsp e

/-- Bit 0 of `STATUS` is a copy of `KS_VALID` (R22). -/
theorem State.status_bit0_of_some {s : State} {K : Schedule} (hks : s.ks = some K) : s.status.getLsbD 0 = true :=
  (statusBitsStandWhereTheSpecPutsThem s).1.trans (s.ksValid_some K hks)

/-- Settles O12: the two answers of `DERIVE` are a response over the new schedule and an error. -/
theorem deriveStoresTheScheduleOrRejectsTheLength : Obligations.DeriveStoresTheScheduleOrRejectsTheLength := by
  refine ⟨fun _ => rfl, fun key s hlen => ?_, fun key s hlen => ?_⟩
  · exact ⟨_, exec_derive_ok key s hlen, rfl, State.ksValid_some _ _ rfl, State.status_bit0_of_some rfl,
      ⟨rfl, rfl, rfl⟩, rfl, rfl, State.respond_rsp _ .ok []⟩
  · exact ⟨_, exec_derive_error key s hlen, s.raiseError_refuses .invalidKeyLength⟩

/-- Settles O40: the two branches of `deriveSchedule`. -/
theorem deriveScheduleAcceptsEightBytesOnly : Obligations.DeriveScheduleAcceptsEightBytesOnly :=
  fun _ => ⟨fun hlen => if_pos hlen, fun hlen => if_neg hlen⟩

/-- In fields of one width laid end to end, field `j` is found after `j` widths. -/
theorem memRead_flatMap_bytes {n : Nat} (vs : List (BitVec n)) (j : Nat) (hj : j < vs.length) :
    memRead (vs.flatMap fun v => bytes v) (n / 8 * j) (n / 8) = bytes vs[j] := by
  induction vs generalizing j with
  | nil => simp at hj
  | cons v vs ih =>
    have hv : (bytes v).length = n / 8 := bytes_length v
    rw [List.flatMap_cons]
    cases j with
    | zero => rw [Nat.mul_zero, memRead_append_left _ _ _ _ (by omega), memRead_all _ _ hv, List.getElem_cons_zero]
    | succ j =>
      rw [Nat.mul_succ, Nat.add_comm, ← hv, memRead_append_right, hv, ih j (by simpa using hj),
        List.getElem_cons_succ]

theorem memRead_schedulePayload (K : Schedule) {i : Nat} (h1 : 1 ≤ i) (h16 : i ≤ 16) :
    memRead (schedulePayload K) (6 * (i - 1)) 6 = bytes (scheduleKey K i) := by
  have hi : i - 1 < K.toList.length := by simp; omega
  rw [scheduleKey, List.getD_eq_getElem _ _ hi]
  exact memRead_flatMap_bytes K.toList (i - 1) hi

/-- Settles O13: a response or, without a schedule, an error. -/
theorem rdksAnswersTheSubkeysInOrder : Obligations.RdksAnswersTheSubkeysInOrder := by
  refine ⟨rfl, fun s K hks => ?_, fun s hks => ?_⟩
  · exact ⟨_, schedulePayload K, exec_rdks_ok s K hks, s.respond_rsp .ok _, schedulePayload_length K,
      fun i h1 h16 => memRead_schedulePayload K h1 h16, s.respond_sameRegisters .ok _⟩
  · exact ⟨_, exec_noSchedule .rdks s rfl hks, s.raiseError_refuses .noSchedule⟩

/-! The halves and the subkeys, round by round -/

theorem scheduleKey_scheduleOf (key : Block) {i : Nat} (h1 : 1 ≤ i) (h16 : i ≤ 16) :
    scheduleKey (scheduleOf key) i = subkeyOf key i := by
  have hi : i - 1 < (scheduleOf key).toList.length := by simp; omega
  rw [scheduleKey, List.getD_eq_getElem _ _ hi]
  simp [scheduleOf, Nat.sub_add_cancel h1]

/-- The split of R142 loses nothing. -/
theorem initialHalves_append (key : Block) :
    (initialHalves key).c ++ (initialHalves key).d = permute (m := 56) tablePC1 key :=
  (BitVec.extractLsb'_append_extractLsb'_eq_extractLsb' rfl).trans BitVec.extractLsb'_eq_self

theorem halvesAfter_succ_eq_rotateLeft (key : Block) (i : Nat) :
    halvesAfter key (i + 1) = { c := (halvesAfter key i).c.rotateLeft (shiftAmount (i + 1)),
                                d := (halvesAfter key i).d.rotateLeft (shiftAmount (i + 1)) } := by
  have hs : shiftAmount (i + 1) < 28 := by have := shiftAmount_le_two (i + 1); omega
  rw [halvesAfter, Halves.rotate, rol28_eq_rotateLeft _ hs, rol28_eq_rotateLeft _ hs]

/-- Settles O39: the halves are those of `halvesAfter`. -/
theorem subkeysComeFromAccumulatedRotations : Obligations.SubkeysComeFromAccumulatedRotations := by
  intro key
  refine ⟨fun i => (halvesAfter key i).c, fun i => (halvesAfter key i).d, initialHalves_append key,
    fun i h1 h16 => ?_⟩
  have hround := halvesAfter_succ_eq_rotateLeft key (i - 1)
  rw [Nat.sub_add_cancel h1] at hround
  exact ⟨congrArg Halves.c hround, congrArg Halves.d hround, scheduleKey_scheduleOf key h1 h16⟩

/-- The totals that R151 lists. -/
theorem totalRotation_eq_listed {i : Nat} (h1 : 1 ≤ i) (h16 : i ≤ 16) :
    totalRotation i = [1, 2, 4, 6, 8, 10, 12, 14, 15, 17, 19, 21, 23, 25, 27, 28].getD (i - 1) 0 := by
  interval_cases i <;> rfl

/-! Which bit of the key each bit of a subkey is (R147) -/

/-- Bits of two joined words, in DES numbering. -/
theorem bitM_append {n m : Nat} (x : BitVec n) (y : BitVec m) (q : Nat) (hq : q ≤ n + m) :
    bitM (x ++ y) q = if q ≤ n then bitM x q else bitM y (q - n) := by
  rw [bitM_eq, BitVec.getLsbD_append]
  by_cases hleft : q ≤ n
  · rw [if_neg (by omega), if_pos hleft, bitM_eq, show n + m - q - m = n - q by omega]
  · rw [if_pos (by omega), if_neg hleft, bitM_eq, show n + m - q = m - (q - n) by omega]

/-- A rotation to the left brings each bit from `t` places to its right, around the end. -/
theorem bitM_rotateLeft {w : Nat} (x : BitVec w) (t q : Nat) (h1 : 1 ≤ q) (hw : q ≤ w) :
    bitM (x.rotateLeft t) q = bitM x ((q - 1 + t) % w + 1) := by
  have hmsb (y : BitVec w) (p : Nat) (hp : p < w) : y.getMsbD p = bitM y (p + 1) := by
    simp [BitVec.getMsbD, bitM, hp, Nat.sub_sub, Nat.add_comm]
  have hlt : (q - 1 + t) % w < w := Nat.mod_lt _ (by omega)
  have hrot := BitVec.getMsbD_rotateLeft (x := x) (r := t) (n := q - 1)
  rw [Nat.add_comm t, hmsb _ _ (by omega), hmsb _ _ hlt, Nat.sub_add_cancel h1] at hrot
  simpa [show q - 1 < w by omega] using hrot

/-- The place in `C0 || D0` that a rotation of both halves by `t` brings to place `q`. -/
def rotatedPlace (t q : Nat) : Nat := if q ≤ 28 then (q - 1 + t) % 28 + 1 else (q - 29 + t) % 28 + 29

theorem rotatedPlace_bounds (t q : Nat) : 1 ≤ rotatedPlace t q ∧ rotatedPlace t q ≤ 56 := by
  rw [rotatedPlace]
  split <;> omega

theorem bitM_rotateLeft_append (c d : BitVec 28) (t q : Nat) (h1 : 1 ≤ q) (h56 : q ≤ 56) :
    bitM (c.rotateLeft t ++ d.rotateLeft t) q = bitM (c ++ d) (rotatedPlace t q) := by
  rw [bitM_append _ _ _ h56, bitM_append _ _ _ (rotatedPlace_bounds t q).2, rotatedPlace]
  by_cases hq : q ≤ 28
  · rw [if_pos hq, if_pos hq, if_pos (by omega), bitM_rotateLeft _ _ _ h1 hq]
  · rw [if_neg hq, if_neg hq, if_neg (by omega), bitM_rotateLeft _ _ _ (by omega) (by omega)]
    rfl

/-- The number of the key bit that bit `p` of subkey `i` is. -/
def keyBitOf (i p : Nat) : Nat := tableEntry tablePC1 (rotatedPlace (totalRotation i) (tableEntry tablePC2 p))

theorem tableEntry_mem {T : List Nat} {j : Nat} (h1 : 1 ≤ j) (hT : j ≤ T.length) : tableEntry T j ∈ T := by
  rw [tableEntry, List.getD_eq_getElem _ _ (by omega)]
  exact List.getElem_mem _

/-- A bit of a subkey is a bit of the key, found through `PC2`, the rotations so far and `PC1` (R142 to R144). -/
theorem bitM_subkeyOf (key : Block) (i : Nat) {p : Nat} (h1 : 1 ≤ p) (h48 : p ≤ 48) :
    bitM (subkeyOf key i) p = bitM key (keyBitOf i p) := by
  obtain ⟨hq1, hq56⟩ := tablePC2_selects_distinct_bits.2.2 _ (tableEntry_mem h1 (by simpa using h48))
  obtain ⟨hr1, hr56⟩ := rotatedPlace_bounds (totalRotation i) (tableEntry tablePC2 p)
  rw [subkeyOf, compressHalves, bitM_permute _ _ _ tablePC2_length h1 h48, halvesAfter_eq_rotateLeft,
    bitM_rotateLeft_append _ _ _ _ hq1 hq56, initialHalves_append, bitM_permute _ _ _ tablePC1_length hr1 hr56,
    keyBitOf]

/-- `PC1` lists exactly the numbers of the 56 effective bits (R113). -/
theorem mem_tablePC1_iff {j : Nat} : j ∈ tablePC1 ↔ 1 ≤ j ∧ j ≤ 64 ∧ j % 8 ≠ 0 := by
  obtain ⟨-, -, hbounds, homits⟩ := tablePC1_omits_multiples_of_eight
  constructor
  · intro hj
    obtain ⟨h1, h64⟩ := hbounds j hj
    exact ⟨h1, h64, fun h8 => (homits j (List.mem_range'_1.mpr ⟨h1, by omega⟩)).mpr h8 hj⟩
  · rintro ⟨h1, h64, h8⟩
    by_contra hj
    exact h8 ((homits j (List.mem_range'_1.mpr ⟨h1, by omega⟩)).mp hj)

/-- A subkey bit is never a parity bit of the key. -/
theorem keyBitOf_mem_tablePC1 (i p : Nat) : keyBitOf i p ∈ tablePC1 := by
  obtain ⟨h1, h56⟩ := rotatedPlace_bounds (totalRotation i) (tableEntry tablePC2 p)
  exact tableEntry_mem h1 (by simpa using h56)

/-- What `PC2` omits in round 1 it selects in round 2, so every effective bit is used in the first two rounds. -/
theorem exists_keyBitOf_eq : ∀ j ∈ tablePC1, ∃ i ∈ [1, 2], ∃ p ∈ List.range' 1 48, keyBitOf i p = j := by decide

theorem scheduleOf_eq_iff (k k' : Block) :
    scheduleOf k = scheduleOf k' ↔ ∀ i, 1 ≤ i → i ≤ 16 → subkeyOf k i = subkeyOf k' i := by
  constructor
  · intro h i h1 h16
    rw [← scheduleKey_scheduleOf k h1 h16, h, scheduleKey_scheduleOf k' h1 h16]
  · intro h
    refine Vector.ext fun i hi => ?_
    rw [scheduleOf, scheduleOf, Vector.getElem_ofFn, Vector.getElem_ofFn]
    exact h (i + 1) (by omega) (by omega)

/-- Settles O41: the bits of the subkeys are the effective bits of the key, none of them missing. -/
theorem schedulesAgreeExactlyOnTheFiftySixBits : Obligations.SchedulesAgreeExactlyOnTheFiftySixBits := by
  intro k k'
  rw [scheduleOf_eq_iff]
  constructor
  · intro h j h1 h64 h8
    obtain ⟨i, hi, p, hp, rfl⟩ := exists_keyBitOf_eq j (mem_tablePC1_iff.mpr ⟨h1, h64, h8⟩)
    obtain ⟨hp1, hp48⟩ := List.mem_range'_1.mp hp
    have hi16 : 1 ≤ i ∧ i ≤ 16 := by simp at hi; omega
    rw [← bitM_subkeyOf k i hp1 (by omega), ← bitM_subkeyOf k' i hp1 (by omega), h i hi16.1 hi16.2]
  · intro h i _ _
    refine eq_of_bitM_eq fun p hp1 hp48 => ?_
    obtain ⟨h1, h64, h8⟩ := mem_tablePC1_iff.mp (keyBitOf_mem_tablePC1 i p)
    rw [bitM_subkeyOf k i hp1 hp48, bitM_subkeyOf k' i hp1 hp48, h _ h1 h64 h8]

/-! The all-zero and the all-ones key (R151) -/

theorem bitM_zero {n : Nat} (j : Nat) : bitM (0#n) j = false := BitVec.getLsbD_zero

theorem bitM_allOnes {n j : Nat} (h1 : 1 ≤ j) (hn : j ≤ n) : bitM (BitVec.allOnes n) j = true := by
  rw [bitM, BitVec.getLsbD_allOnes, decide_eq_true_iff]
  omega

theorem subkeyOf_zero (i : Nat) : subkeyOf 0x0000000000000000 i = 0x000000000000 := by
  refine eq_of_bitM_eq fun p h1 h48 => ?_
  rw [bitM_subkeyOf _ i h1 h48]
  exact (bitM_zero _).trans (bitM_zero p).symm

theorem subkeyOf_allOnes (i : Nat) : subkeyOf 0xFFFFFFFFFFFFFFFF i = 0xFFFFFFFFFFFF := by
  refine eq_of_bitM_eq fun p h1 h48 => ?_
  obtain ⟨hj1, hj64, -⟩ := mem_tablePC1_iff.mp (keyBitOf_mem_tablePC1 i p)
  rw [bitM_subkeyOf _ i h1 h48]
  exact (bitM_allOnes hj1 hj64).trans (bitM_allOnes h1 h48).symm

/-- Settles O42: the rotations add up, and every bit of a subkey is a bit of the key. -/
theorem rotationsReturnTheHalvesAfterSixteenRounds : Obligations.RotationsReturnTheHalvesAfterSixteenRounds := by
  refine ⟨fun key => ⟨halvesAfter_sixteen key, ?_⟩, fun key i h1 h16 => ?_, fun i h1 h16 => ⟨?_, ?_⟩⟩
  · rw [scheduleKey_scheduleOf key (by decide) (by decide), subkeyOf, halvesAfter_sixteen, halvesAfter]
  · rw [scheduleKey_scheduleOf key h1 h16, subkeyOf, halvesAfter_eq_rotateLeft, totalRotation_eq_listed h1 h16]
  · rw [scheduleKey_scheduleOf _ h1 h16, subkeyOf_zero]
  · rw [scheduleKey_scheduleOf _ h1 h16, subkeyOf_allOnes]

end Sys2Proof.Machine
end

section
/-! The round function (spec/42_round_function.md R160 to R169): the nibbles of the substituted value, what
complementing its operands does, and the response of `RNDF`. -/

namespace Sys2Proof.Machine

/-! Substitution (R164, R165) -/

/-- Behind one more nibble joined at the right, a nibble stands four bits further to the left. -/
theorem extractLsb'_append_nibble {n : Nat} (z : BitVec n) (nibble : BitVec 4) (k : Nat) :
    (z ++ nibble).extractLsb' (k + 4) 4 = z.extractLsb' k 4 :=
  BitVec.extractLsb'_append_eq_of_le (Nat.le_add_left 4 k)

/-- Nibble `i` of the substituted value, nibble 0 leftmost, is the output of S-box `i` for group `i`. -/
theorem extractLsb'_substitute (y : Subkey) {i : Nat} (hi : i < 8) :
    (substitute y).extractLsb' (28 - 4 * i) 4 = sbox i (sboxGroup y i) := by
  rw [substitute]
  interval_cases i <;>
    simp only [extractLsb'_append_nibble, BitVec.extractLsb'_append_eq_right, BitVec.extractLsb'_eq_self,
      Nat.reduceMul, Nat.reduceSub]

/-- Settles O43: the value between the substitution and the permutation is `substitute` of the mixed value. -/
theorem roundFunctionSubstitutesGroupByGroup : Obligations.RoundFunctionSubstitutesGroupByGroup :=
  fun half subkey => ⟨substitute (permute tableE half ^^^ subkey), rfl, fun _ hi => extractLsb'_substitute _ hi⟩

/-! Complemented operands (R168) -/

theorem bitM_xor {n : Nat} (v w : BitVec n) (j : Nat) : bitM (v ^^^ w) j = (bitM v j ^^ bitM w j) :=
  BitVec.getLsbD_xor

/-- A permutation by a table whose entries are places of its input carries a complement through. -/
theorem permute_xor_allOnes {n m : Nat} (T : List Nat) (v : BitVec n) (hT : T.length = m)
    (hentries : ∀ j ∈ T, 1 ≤ j ∧ j ≤ n) :
    permute (m := m) T (v ^^^ BitVec.allOnes n) = permute T v ^^^ BitVec.allOnes m := by
  refine eq_of_bitM_eq fun j h1 hm => ?_
  obtain ⟨hentry1, hentryn⟩ := hentries _ (tableEntry_mem h1 (by omega))
  rw [bitM_permute _ _ _ hT h1 hm, bitM_xor, bitM_allOnes hentry1 hentryn, bitM_xor, bitM_permute _ _ _ hT h1 hm,
    bitM_allOnes h1 hm]

/-- The round function depends on its operands only through the mixed value. -/
theorem roundF_congr {half half' : Half} {subkey subkey' : Subkey}
    (hmix : permute tableE half' ^^^ subkey' = permute tableE half ^^^ subkey) :
    roundF half' subkey' = roundF half subkey := by
  rw [roundF, hmix, roundF]

/-- Settles O44: the expansion carries the complement of the half through, and the key mixing cancels it against the
complement of the subkey. -/
theorem roundFunctionIgnoresComplementingBothOperands :
    Obligations.RoundFunctionIgnoresComplementingBothOperands := by
  intro half subkey
  have hexpand : permute tableE (half ^^^ 0xFFFFFFFF) = permute tableE half ^^^ BitVec.allOnes 48 :=
    permute_xor_allOnes tableE half tableE_length tableE_repeats_sixteen_bits.2.1
  have hcancel : BitVec.allOnes 48 ^^^ 0xFFFFFFFFFFFF = 0#48 := by decide
  apply roundF_congr
  calc permute tableE (half ^^^ 0xFFFFFFFF) ^^^ (subkey ^^^ 0xFFFFFFFFFFFF)
      = permute tableE half ^^^ BitVec.allOnes 48 ^^^ (subkey ^^^ 0xFFFFFFFFFFFF) := by rw [hexpand]
    _ = permute tableE half ^^^ subkey ^^^ (BitVec.allOnes 48 ^^^ 0xFFFFFFFFFFFF) := by ac_rfl
    _ = permute tableE half ^^^ subkey := by rw [hcancel, BitVec.xor_zero]

/-! The command (R169) -/

/-- Settles O14: the answer is a response, which changes no register. -/
theorem rndfAnswersTheRoundFunction : Obligations.RndfAnswersTheRoundFunction := fun half subkey s =>
  ⟨rfl, _, exec_rndf half subkey s, s.respond_rsp .ok _, s.respond_sameRegisters .ok _⟩

end Sys2Proof.Machine
end

section
/-! The block cipher (spec/43_block_cipher.md R180 to R191): the halves round by round, the rounds run backwards, and
the responses of `ENCB` and `DECB`. -/

namespace Sys2Proof.Machine

/-! The halves, round by round (R181, R182) -/

/-- `L_i` and `R_i`: the halves after the first `i` rounds of a block. -/
def blockHalvesAfter (block : Block) (K : Schedule) (dir : Direction) : Nat → LR
  | 0 => initialSplit block
  | i + 1 => feistelRound (blockHalvesAfter block K dir i) (roundKey dir K (i + 1))

theorem foldl_feistelRound_eq (block : Block) (K : Schedule) (dir : Direction) (n : Nat) :
    (List.range' 1 n).foldl (fun x i => feistelRound x (roundKey dir K i)) (initialSplit block) =
      blockHalvesAfter block K dir n := by
  induction n with
  | zero => rfl
  | succ n ih =>
    rw [List.range'_1_concat, List.foldl_append, ih, Nat.add_comm 1 n]
    rfl

theorem feistel_eq_finalJoin (block : Block) (K : Schedule) (dir : Direction) :
    feistel block K dir = finalJoin (blockHalvesAfter block K dir 16) :=
  congrArg finalJoin (foldl_feistelRound_eq block K dir 16)

/-- The split of R181 loses nothing. -/
theorem initialSplit_append (block : Block) :
    (initialSplit block).l ++ (initialSplit block).r = permute (m := 64) tableIP block :=
  (BitVec.extractLsb'_append_extractLsb'_eq_extractLsb' rfl).trans BitVec.extractLsb'_eq_self

/-- Settles O45: the halves are those of `blockHalvesAfter`. -/
theorem blockCipherIsSixteenFeistelRounds : Obligations.BlockCipherIsSixteenFeistelRounds := by
  intro block K dir
  have hkey (i : Nat) : scheduleKey K (if dir = .enc then i else 17 - i) = roundKey dir K i := by cases dir <;> rfl
  have hresult : (if dir = .enc then encryptBlock block K else decryptBlock block K) = feistel block K dir := by
    cases dir <;> rfl
  refine ⟨fun i => (blockHalvesAfter block K dir i).l, fun i => (blockHalvesAfter block K dir i).r,
    initialSplit_append block, fun i h1 _ => ?_, hresult.trans (feistel_eq_finalJoin block K dir)⟩
  obtain ⟨j, rfl⟩ := Nat.exists_eq_add_of_le' h1
  rw [hkey]
  exact ⟨rfl, rfl⟩

/-! The rounds run backwards (R188) -/

/-- The exchange of the halves that stands between the last round and the final permutation (R185). -/
def LR.swap (x : LR) : LR := { l := x.r, r := x.l }

/-- A round is undone by itself, between two exchanges of the halves: the right half passed through, so the same value
of the round function is added a second time. -/
theorem feistelRound_swap_feistelRound (x : LR) (k : Subkey) :
    feistelRound (feistelRound x k).swap k = x.swap := by
  simp only [feistelRound, LR.swap, BitVec.xor_assoc, BitVec.xor_self, BitVec.xor_zero]

/-- `FP` and `IP` cancel between two runs of the rounds, and the exchange of the halves is left. -/
theorem initialSplit_finalJoin (x : LR) : initialSplit (finalJoin x) = x.swap := by
  have hperm : permute (m := 64) tableIP (finalJoin x) = x.r ++ x.l :=
    (finalPermutationUndoesInitialPermutation (x.r ++ x.l)).2
  simp only [initialSplit, hperm, LR.swap, LR.mk.injEq]
  exact ⟨BitVec.extractLsb'_append_eq_left, BitVec.extractLsb'_append_eq_right⟩

theorem finalJoin_swap_initialSplit (block : Block) : finalJoin (initialSplit block).swap = block :=
  (congrArg (permute tableFP) (initialSplit_append block)).trans (finalPermutationUndoesInitialPermutation block).1

/-- The direction that takes the subkeys in the opposite order (R183, R184). -/
def Direction.opposite : Direction → Direction
  | .enc => .dec
  | .dec => .enc

theorem roundKey_opposite (dir : Direction) (K : Schedule) {i : Nat} (h16 : i ≤ 16) :
    roundKey dir.opposite K (i + 1) = roundKey dir K (16 - i) := by
  cases dir with
  | enc => exact congrArg (scheduleKey K) (show 17 - (i + 1) = 16 - i by omega)
  | dec => exact congrArg (scheduleKey K) (show i + 1 = 17 - (16 - i) by omega)

/-- Run on its own result with the subkeys in the opposite order, the cipher goes back through the same halves,
exchanged. -/
theorem blockHalvesAfter_opposite (block : Block) (K : Schedule) (dir : Direction) {i : Nat} (h16 : i ≤ 16) :
    blockHalvesAfter (feistel block K dir) K dir.opposite i = (blockHalvesAfter block K dir (16 - i)).swap := by
  induction i with
  | zero => rw [blockHalvesAfter, feistel_eq_finalJoin, initialSplit_finalJoin]
  | succ i ih =>
    have hround : blockHalvesAfter block K dir (16 - i) =
        feistelRound (blockHalvesAfter block K dir (16 - (i + 1))) (roundKey dir K (16 - i)) := by
      rw [show 16 - i = 16 - (i + 1) + 1 by omega, blockHalvesAfter]
    rw [blockHalvesAfter, ih (by omega), roundKey_opposite dir K (by omega), hround, feistelRound_swap_feistelRound]

theorem feistel_opposite_feistel (block : Block) (K : Schedule) (dir : Direction) :
    feistel (feistel block K dir) K dir.opposite = block := by
  rw [feistel_eq_finalJoin _ K dir.opposite, blockHalvesAfter_opposite block K dir le_rfl]
  exact finalJoin_swap_initialSplit block

theorem decryptBlock_encryptBlock (block : Block) (K : Schedule) : decryptBlock (encryptBlock block K) K = block :=
  feistel_opposite_feistel block K .enc

theorem encryptBlock_decryptBlock (block : Block) (K : Schedule) : encryptBlock (decryptBlock block K) K = block :=
  feistel_opposite_feistel block K .dec

/-- Settles O46: each direction is a two-sided inverse of the other. -/
theorem decryptionUndoesEncryption : Obligations.DecryptionUndoesEncryption := by
  intro K
  have hde : Function.LeftInverse (fun b => decryptBlock b K) fun b => encryptBlock b K :=
    fun b => decryptBlock_encryptBlock b K
  have hed : Function.LeftInverse (fun b => encryptBlock b K) fun b => decryptBlock b K :=
    fun b => encryptBlock_decryptBlock b K
  exact ⟨fun b => ⟨hde b, hed b⟩, ⟨hde.injective, hed.surjective⟩, ⟨hed.injective, hde.surjective⟩⟩

/-! Equal subkeys (R190) -/

/-- A direction matters only through the subkey each of the sixteen rounds takes. -/
theorem blockHalvesAfter_congr (block : Block) {K K' : Schedule} {dir dir' : Direction} {n : Nat}
    (hkey : ∀ i, 1 ≤ i → i ≤ n → roundKey dir K i = roundKey dir' K' i) :
    blockHalvesAfter block K dir n = blockHalvesAfter block K' dir' n := by
  induction n with
  | zero => rfl
  | succ n ih =>
    rw [blockHalvesAfter, blockHalvesAfter, ih fun i h1 hn => hkey i h1 (by omega), hkey (n + 1) (by omega) le_rfl]

/-- Settles O47: with equal subkeys round `i` takes the same one in both directions. -/
theorem equalSubkeysMakeBothDirectionsOne : Obligations.EqualSubkeysMakeBothDirectionsOne := by
  intro K hequal block
  have hkey : ∀ i, 1 ≤ i → i ≤ 16 → roundKey .enc K i = roundKey .dec K i :=
    fun i h1 h16 => hequal i (17 - i) h1 h16 (by omega) (by omega)
  rw [encryptBlock, decryptBlock, feistel_eq_finalJoin, feistel_eq_finalJoin, blockHalvesAfter_congr block hkey]

/-! The commands (R189, R190) -/

/-- A command whose answer is a plain response changes no register. -/
theorem exists_answers_of_respond {i : Instr} {s : State} {payload : List Byte}
    (h : exec i s = .next (s.respond .ok payload)) :
    ∃ t, exec i s = .next t ∧ Answers s t .ok payload ∧ SameRegisters s t :=
  ⟨_, h, s.respond_rsp .ok payload, s.respond_sameRegisters .ok payload⟩

/-- Without a schedule every command that reads `KS` is refused (R243). -/
theorem exists_refuses_noSchedule {i : Instr} {s : State} (hi : readsSchedule i = true) (hks : s.ks = none) :
    ∃ t, exec i s = .next t ∧ Refuses s t .noSchedule :=
  ⟨_, exec_noSchedule i s hi hks, s.raiseError_refuses .noSchedule⟩

/-- Settles O15: a response or, without a schedule, an error. -/
theorem encbAnswersTheEncryptedBlock : Obligations.EncbAnswersTheEncryptedBlock :=
  ⟨fun _ => rfl, fun block s K hks => exists_answers_of_respond (exec_encb_ok block s K hks),
    fun _ _ hks => exists_refuses_noSchedule rfl hks⟩

/-- Settles O16: as `ENCB`, with the other direction of the cipher. -/
theorem decbAnswersTheDecryptedBlock : Obligations.DecbAnswersTheDecryptedBlock :=
  ⟨fun _ => rfl, fun block s K hks => exists_answers_of_respond (exec_decb_ok block s K hks),
    fun _ _ hks => exists_refuses_noSchedule rfl hks⟩

/-- The payload of a response stands on `RSP` behind what was there and the status byte (R88). -/
theorem memRead_payload {s t : State} {st : StatusCode} {payload : List Byte} (h : Answers s t st payload) :
    memRead t.rsp (s.rsp.length + 1) payload.length = payload := by
  rw [h, memRead_append_right]
  exact memRead_all payload _ rfl

/-- Settles O48: `DECB` finds on `RSP` the encrypted block and in `KS` the schedule that encrypted it. -/
theorem decbOfTheEncbAnswerGivesTheBlockBack : Obligations.DecbOfTheEncbAnswerGivesTheBlockBack := by
  intro block s K hks
  have hpayload : memRead (s.respond .ok (bytes (encryptBlock block K))).rsp (s.rsp.length + 1) 8 =
      bytes (encryptBlock block K) := memRead_payload (s.respond_rsp .ok _)
  refine ⟨_, _, exec_encb_ok block s K hks, exec_decb_ok _ _ K hks, ?_⟩
  rw [hpayload, be_bytes _ rfl, decryptBlock_encryptBlock]
  exact State.respond_rsp _ .ok _

/-! Stream commands of one block (R200, R201) -/

theorem chunk_of_length_eight {data : List Byte} (hlen : data.length = 8) : chunk data = [be 64 data] := by
  simp [chunk, hlen, group, Config.blockBytes, memRead_all data 8 hlen]

theorem deserialise_of_length_eight {data : List Byte} (hlen : data.length = 8) :
    (deserialise data).1 = [be 64 data] := by
  simp [deserialise, hlen, group, Config.blockBytes, memRead_all data 8 hlen]

theorem unchunk_process_singleton (block : Block) (K : Schedule) (dir : Direction) :
    unchunk (process [block] K dir) = bytes (feistel block K dir) := List.append_nil _

/-- Settles O54: both commands refuse alike or answer the bytes of the one block; no byte of the eight is padded or
dropped. -/
theorem eightByteStreamsAreBlockCommands : Obligations.EightByteStreamsAreBlockCommands := by
  intro data s hlen
  cases hks : s.ks with
  | none =>
    exact ⟨(exec_noSchedule (.encs data) s rfl hks).trans (exec_noSchedule (.encb _) s rfl hks).symm,
      (exec_noSchedule (.decs data) s rfl hks).trans (exec_noSchedule (.decb _) s rfl hks).symm⟩
  | some K =>
    constructor
    · rw [exec_encs_ok data s K hks, exec_encb_ok _ s K hks, encryptStream, chunk_of_length_eight hlen,
        unchunk_process_singleton, encryptBlock]
    · rw [exec_decs_ok data s K hks (by rw [hlen]), exec_decb_ok _ s K hks, decryptStream,
        deserialise_of_length_eight hlen, unchunk_process_singleton, decryptBlock]

end Sys2Proof.Machine
end

section
/-! Streams (spec/44_stream_pipeline.md R200 to R211): encryption works on the zero-padded stream, whole groups and
blocks are two forms of one thing, and what is cut at a group boundary is processed piece by piece. -/

namespace Sys2Proof.Machine

/-! The zero-padded stream (R200) -/

/-- The stream with its last group extended by zero bytes to eight (R200). -/
def padded (s : List Byte) : List Byte := s ++ zeros ((8 - s.length % 8) % 8)

@[simp] theorem padded_length (s : List Byte) : (padded s).length = 8 * ((s.length + 7) / 8) := by
  rw [padded, List.length_append, zeros_length]
  omega

/-- The groups that are encrypted are the full groups of the padded stream. -/
theorem chunk_eq_deserialise_padded (s : List Byte) : chunk s = (deserialise (padded s)).1 := by
  have hpad : 8 * ((s.length + 7) / 8) - s.length = (8 - s.length % 8) % 8 := by omega
  have hgroups : (padded s).length / 8 = (s.length + 7) / 8 := by
    rw [padded_length, Nat.mul_div_cancel_left _ (by decide)]
  rw [deserialise, hgroups, padded, ← hpad, chunk]

/-- Behind whole groups only the last part is padded. -/
theorem padded_append (s u : List Byte) (hs : s.length % 8 = 0) : padded (s ++ u) = s ++ padded u := by
  rw [padded, padded, List.length_append, Nat.add_mod, hs, Nat.zero_add, Nat.mod_mod, List.append_assoc]

theorem padded_of_whole_groups (s : List Byte) (hs : s.length % 8 = 0) : padded s = s := by
  simp [padded, hs]

/-- Zeros within the last group are what padding appends itself (R207). -/
theorem padded_append_zeros (s : List Byte) (k : Nat) (hs : s.length % 8 ≠ 0) (hk : k ≤ 8 - s.length % 8) :
    padded (s ++ zeros k) = padded s := by
  have hpad : (8 - s.length % 8) % 8 = k + (8 - (s.length + k) % 8) % 8 := by omega
  rw [padded, padded, List.length_append, zeros_length, hpad, zeros_add, List.append_assoc]

/-! Cutting at a group boundary (R201, R209) -/

theorem group_append_left (s u : List Byte) {j : Nat} (hj : j < s.length / 8) : group (s ++ u) j = group s j :=
  memRead_append_left s u (8 * j) 8 (by omega)

theorem group_append_right (s u : List Byte) (j : Nat) (hs : s.length % 8 = 0) :
    group (s ++ u) (s.length / 8 + j) = group u j := by
  have hstart : 8 * (s.length / 8 + j) = s.length + 8 * j := by omega
  rw [group, group, Config.blockBytes, hstart, memRead_append_right]

theorem deserialise_append (s u : List Byte) (hs : s.length % 8 = 0) :
    deserialise (s ++ u) = ((deserialise s).1 ++ (deserialise u).1, (deserialise u).2) := by
  have hgroups : (s ++ u).length / 8 = s.length / 8 + u.length / 8 := by rw [List.length_append]; omega
  have hrest : (s ++ u).length % 8 = u.length % 8 := by rw [List.length_append]; omega
  rw [deserialise, hgroups, hrest, List.range_add, List.map_append, List.map_map]
  congr 2
  · exact List.map_congr_left fun j hj => by rw [group_append_left s u (List.mem_range.mp hj)]
  · exact List.map_congr_left fun j _ => by rw [Function.comp_apply, group_append_right s u j hs]

theorem chunk_append (s u : List Byte) (hs : s.length % 8 = 0) : chunk (s ++ u) = chunk s ++ chunk u := by
  rw [chunk_eq_deserialise_padded, chunk_eq_deserialise_padded, chunk_eq_deserialise_padded, padded_append s u hs,
    deserialise_append s _ hs, padded_of_whole_groups s hs]

/-- The output of two runs of blocks is the two outputs joined (R202, R203). -/
theorem unchunk_process_append (bs cs : List Block) (K : Schedule) (dir : Direction) :
    unchunk (process (bs ++ cs) K dir) = unchunk (process bs K dir) ++ unchunk (process cs K dir) := by
  rw [process, List.map_append, unchunk, List.flatMap_append]
  rfl

/-- Settles O53: the groups of the joined stream are the groups of its parts, and only the second part can end in a
short one. -/
theorem streamsSplitAtGroupBoundaries : Obligations.StreamsSplitAtGroupBoundaries := by
  intro s u K hs
  constructor
  · rw [encryptStream, chunk_append s u hs, unchunk_process_append]
    rfl
  · rw [decryptStream, deserialise_append s u hs, unchunk_process_append]
    rfl

/-- Settles O52: both streams are padded to the same one. -/
theorem paddingZerosCannotBeToldApart : Obligations.PaddingZerosCannotBeToldApart := by
  intro s K k hs hk
  rw [encryptStream, encryptStream, chunk_eq_deserialise_padded, chunk_eq_deserialise_padded,
    padded_append_zeros s k hs hk]

/-! Whole groups and blocks (R201, R203) -/

/-- The bytes of the full groups are the stream itself where no byte is left over. -/
theorem unchunk_deserialise (s : List Byte) (hs : s.length % 8 = 0) : unchunk (deserialise s).1 = s := by
  refine eq_of_memRead_groups_eq (s.length / 8) (by simp) (by omega) fun j hj => ?_
  have hlt : j < (deserialise s).1.length := by rwa [deserialise_length]
  have hgroup : (memRead s (8 * j) 8).length = 8 := memRead_length s (8 * j) 8 (by omega)
  rw [memRead_unchunk _ j hlt, deserialise_getElem s j hlt, bytes_be 64 _ (by rw [hgroup])]

/-- Blocks read back from their own bytes whole, with nothing dropped. -/
theorem deserialise_unchunk (bs : List Block) : deserialise (unchunk bs) = (bs, false) := by
  refine Prod.ext (List.ext_getElem (by simp) fun j hj hlt => ?_) (by simp [deserialise])
  rw [deserialise_getElem _ j hj, memRead_unchunk bs j hlt, be_bytes _ rfl]

theorem unchunk_chunk (s : List Byte) : unchunk (chunk s) = padded s := by
  rw [chunk_eq_deserialise_padded, unchunk_deserialise _ (by simp)]

/-- The decrypted blocks of encrypted blocks are those blocks (R188, R202). -/
theorem process_dec_process_enc (bs : List Block) (K : Schedule) : process (process bs K .enc) K .dec = bs := by
  rw [process, process, List.map_map]
  exact List.map_id'' (fun b => decryptBlock_encryptBlock b K) bs

/-- Settles O51: the ciphertext is whole blocks, their decryption the blocks of the padded stream. -/
theorem decryptingAnEncryptedStreamGivesThePaddedStream :
    Obligations.DecryptingAnEncryptedStreamGivesThePaddedStream := by
  intro s K
  rw [decryptStream, encryptStream, deserialise_unchunk, process_dec_process_enc, unchunk_chunk, padded]

/-! Lengths (R206) -/

theorem encryptStream_length (s : List Byte) (K : Schedule) :
    (encryptStream s K).length = 8 * ((s.length + 7) / 8) := by
  rw [encryptStream, unchunk_length, process_length, chunk_length]

theorem decryptStream_length (s : List Byte) (K : Schedule) : (decryptStream s K).1.length = 8 * (s.length / 8) := by
  rw [decryptStream, unchunk_length, process_length, deserialise_length]

/-- Settles O49: arithmetic on the two block counts. -/
theorem streamLengths : Obligations.StreamLengths := by
  intro s K
  rw [encryptStream_length, decryptStream_length]
  exact ⟨rfl, by split <;> omega, rfl, by omega, by omega, by omega, by omega, by omega⟩

/-! The commands (R210, R211) -/

/-- Settles O17: a response for every length or, without a schedule, an error. -/
theorem encsAnswersTheEncryptedStream : Obligations.EncsAnswersTheEncryptedStream := by
  refine ⟨fun _ => rfl, fun data s K hks => ?_, fun _ _ hks => exists_refuses_noSchedule rfl hks⟩
  exact ⟨_, exec_encs_ok data s K hks, s.respond_rsp .ok _, encryptStream_length data K,
    s.respond_sameRegisters .ok _⟩

/-- Settles O18: a response over whole groups, the warning where bytes are dropped or, without a schedule, an error. -/
theorem decsAnswersTheDecryptedFullBlocks : Obligations.DecsAnswersTheDecryptedFullBlocks := by
  refine ⟨fun _ => rfl, fun data s K hks h8 => ?_, fun data s K hks h8 => ?_,
    fun _ _ hks => exists_refuses_noSchedule rfl hks⟩
  · exact ⟨_, exec_decs_ok data s K hks h8, s.respond_rsp .ok _, decryptStream_length data K,
      s.respond_sameRegisters .ok _⟩
  · exact ⟨_, exec_decs_truncated data s K hks h8, s.warnTruncated_rsp _, decryptStream_length data K,
      s.warnTruncated_wTrunc _, s.warnTruncated_ks _, s.warnTruncated_eKeylen _, s.warnTruncated_eNosched _,
      s.warnTruncated_halted _, s.warnTruncated_cmd _⟩

end Sys2Proof.Machine
end

section
/-! The system commands (spec/45_system_commands.md R230, R231): what `RST` and `RDST` answer, and which values of
`STATUS` the invariant allows. -/

namespace Sys2Proof.Machine

/-! `RST` (R230) -/

/-- Settles O19: `RST` leaves what every reset leaves (O28), and its answer there, `00`, is the status `ok` alone. -/
theorem rstClearsTheRegistersAndKeepsTheChannels : Obligations.RstClearsTheRegistersAndKeepsTheChannels := by
  obtain ⟨-, -, hrst⟩ := resetLeavesNoScheduleAndClearStatus
  exact ⟨rfl, hrst⟩

/-! `RDST` (R231) -/

/-- What leaves the registers of R20 to R23 alone leaves `STATUS` alone. -/
theorem SameRegisters.status {s t : State} (h : SameRegisters s t) : t.status = s.status :=
  s.status_congr t h.ks h.sticky.eKeylen h.sticky.eNosched h.sticky.wTrunc

/-- Settles O20: `RDST` is a response, and a response changes no register. -/
theorem rdstAnswersTheStatusRegister : Obligations.RdstAnswersTheStatusRegister := by
  refine ⟨rfl, fun s => ?_⟩
  obtain ⟨t, hexec, hanswer, hframe⟩ := exists_answers_of_respond (exec_rdst s)
  exact ⟨t, hexec, hanswer, hframe.status, hframe⟩

/-- Bits 7:4 of `STATUS` are 0 (R22), so its value is that of bits 3:0. -/
theorem State.status_le (s : State) : s.status.toNat ≤ 0x0F := by
  obtain ⟨-, -, -, -, hhigh⟩ := statusBitsStandWhereTheSpecPutsThem s
  have hzero : s.status.toNat / 16 % 16 = 0 := by
    simpa [BitVec.extractLsb'_toNat, Nat.shiftRight_eq_div_pow] using congrArg BitVec.toNat hhigh
  omega

/-- Under the invariant `STATUS` never shows `W_TRUNC` (bit 3) without `KS_VALID` (bit 0). -/
theorem State.Inv.status_bit0_of_bit3 {s : State} (hs : s.Inv) (h3 : s.status.getLsbD 3 = true) :
    s.status.getLsbD 0 = true := by
  obtain ⟨hvalid, -, -, htrunc, -⟩ := statusBitsStandWhereTheSpecPutsThem s
  rw [htrunc] at h3
  rw [hvalid]
  exact hs.truncated h3

/-- So no byte with bit 3 set and bit 0 clear is the `STATUS` of a state that the invariant allows. -/
theorem State.Inv.status_ne {s : State} (hs : s.Inv) {v : Byte} (h3 : v.getLsbD 3 = true)
    (h0 : v.getLsbD 0 = false) : s.status ≠ v := by
  rintro rfl
  exact Bool.false_ne_true (h0.symm.trans (hs.status_bit0_of_bit3 h3))

/-- Settles O32: the four excluded bytes are those up to `0F` with bit 3 set and bit 0 clear. -/
theorem rdstNeverAnswersTruncationWithoutASchedule : Obligations.RdstNeverAnswersTruncationWithoutASchedule :=
  fun s hs => ⟨_, s.status, exec_rdst s, s.respond_rsp .ok _, s.status_le, hs.status_ne rfl rfl, hs.status_ne rfl rfl,
    hs.status_ne rfl rfl, hs.status_ne rfl rfl⟩

end Sys2Proof.Machine
end

section
/-! Exceptions (spec/60_exceptions.md R240 to R257): where there is no step, the commands that are refused without a
schedule, and the order of the error checks. -/

namespace Sys2Proof.Machine

/-! No step (R257, R275) -/

/-- The decoder waits on the beginning of a well-formed command's packet: more bytes would change neither a packet
nor an illegal opcode found there. -/
theorem decode_of_begun_packet {bs more : List Byte} {i : Instr} (hi : i.wellFormed = true) (hbs : bs ≠ [])
    (hmore : more ≠ []) (h : bs ++ more = encode i) : decode bs = .incompletePacket := by
  have hwhole : decode (bs ++ more) = .packet i [] := by
    rw [h, ← List.append_nil (encode i), decode_encode_append i [] hi]
  obtain ⟨j, rest, hd⟩ | ⟨hnil, -⟩ | ⟨-, hd, -⟩ | ⟨op, rest, -, -, hd⟩ := decode_packet_or_isTail bs
  · obtain ⟨-, hrest⟩ := Decoded.packet.inj ((decode_append_of_packet hd more).symm.trans hwhole)
    exact absurd (List.append_eq_nil_iff.mp hrest).2 hmore
  · exact absurd hnil hbs
  · exact hd
  · cases (decode_append_of_illegalOpcode hd more).symm.trans hwhole

/-- Settles O8: the decoder finds no packet in no bytes, and waits on a packet that has begun. -/
theorem nothingOrPartOfAPacketGivesNoStep : Obligations.NothingOrPartOfAPacketGivesNoStep := by
  refine ⟨fun s hs hcmd => ?_, fun s i more hs hi hcmd hmore henc => ?_⟩
  · exact step_noPacket s hs (by rw [hcmd, decode])
  · exact step_incompletePacket s hs (decode_of_begun_packet hi hcmd hmore henc)

/-! `NoSchedule` (R243) -/

theorem State.ksValid_eq_false_iff {s : State} : s.ksValid = false ↔ s.ks = none :=
  Option.isSome_eq_false_iff.trans Option.isNone_iff_eq_none

theorem State.ksValid_eq_true_iff {s : State} : s.ksValid = true ↔ ∃ K, s.ks = some K := Option.isSome_iff_exists

theorem readsSchedule_iff (i : Instr) : readsSchedule i = true ↔
    (i = .rdks ∨ (∃ b, i = .encb b) ∨ (∃ b, i = .decb b) ∨ (∃ d, i = .encs d) ∨ ∃ d, i = .decs d) := by
  cases i <;> simp [readsSchedule]

/-- A refusal is the same whether or not `OPC` and `CNT` are written before it. -/
theorem Refuses.of_fetched {s t : State} {i : Instr} {rest : List Byte} {e : ErrorKind}
    (h : Refuses (s.fetched i rest) t e) : Refuses { s with cmd := rest } t e :=
  ⟨h.ks, h.halted, h.cmd, h.wTrunc, h.eKeylen, h.eNosched, h.answer⟩

/-- Settles O23: the refusal at `exec`, and at `step` the same on the state whose packet has been fetched. -/
theorem readersOfTheScheduleRefuseWithoutOne : Obligations.ReadersOfTheScheduleRefuseWithoutOne := by
  refine ⟨readsSchedule_iff, fun i s hi hks => ?_, fun i s rest hi hks hs hwf hcmd => ?_⟩
  · exact exists_refuses_noSchedule hi (State.ksValid_eq_false_iff.mp hks)
  · obtain ⟨t, hexec, hrefuses⟩ :=
      exists_refuses_noSchedule (s := s.fetched i rest) hi (State.ksValid_eq_false_iff.mp hks)
    exact ⟨t, (step_encode s i rest hs hwf hcmd).trans hexec, hrefuses.of_fetched⟩

/-! The order of the checks (R249) -/

/-- `DERIVE` checks the length of the key and nothing else, so it never answers `NoSchedule`. -/
theorem exec_derive_answers_other_than_noSchedule (key : List Byte) (s : State) :
    ∃ t st, exec (.derive key) s = .next t ∧ Answers s t st [] ∧ st ≠ .noSchedule := by
  by_cases hlen : key.length = 8
  · exact ⟨_, .ok, exec_derive_ok key s hlen, State.respond_rsp _ .ok [], nofun⟩
  · exact ⟨_, _, exec_derive_error key s hlen, s.raiseError_rsp .invalidKeyLength, nofun⟩

/-- Settles O24: each check decides on its own field alone, and `len mod 8` counts only where there is a schedule. -/
theorem errorsHaveTheFixedPriority : Obligations.ErrorsHaveTheFixedPriority := by
  refine ⟨fun op rest hop => decode_eq_illegalOpcode_iff.mpr ⟨rfl, hop⟩, fun key s hlen => ?_,
    exec_derive_answers_other_than_noSchedule, fun i s hi hks => ?_, fun data s hks h8 => ?_⟩
  · exact ⟨_, exec_derive_error key s hlen, s.raiseError_refuses .invalidKeyLength⟩
  · obtain ⟨t, hexec, hrefuses⟩ := exists_refuses_noSchedule hi (State.ksValid_eq_false_iff.mp hks)
    exact ⟨t, hexec, hrefuses.answer, hrefuses.wTrunc⟩
  · obtain ⟨K, hK⟩ := State.ksValid_eq_true_iff.mp hks
    exact ⟨_, _, exec_decs_truncated data s K hK h8, s.warnTruncated_rsp _⟩

end Sys2Proof.Machine
end
